-- ==== Sys2Proof/Word.lean ====
section
/-! DEFINITION. The word types of the CHIP-8 CORE (spec/00_scope.md R6): widths only. -/

namespace Sys2Proof

/-- A general register, a timer or a memory cell: 8 bits (R10, R17, R19). -/
abbrev Byte := BitVec 8

/-- An instruction word, I, PC or a stack entry: 16 bits (R14, R15, R46, R60). -/
abbrev Word := BitVec 16

/-- A 4-bit field of an instruction word: a register index `x` or `y`, a row count `n`, or a logical key 0 to 15 (R9, R62). -/
abbrev Nibble := BitVec 4

/-- The 12-bit address field `nnn` of an instruction word (R62). -/
abbrev Addr := BitVec 12

end Sys2Proof
end

