-- ==== Sys2Proof/Syntax.lean ====
section
/-! DEFINITION. The 35 instructions, one constructor per row of spec/opcode_table.json, in scan order (spec/30_encoding.md R66). -/

namespace Sys2Proof

/-- An instruction with its operand fields (R61, R62): `nnn` an address, `x` and `y` register indices, `kk` a byte, `n` a row count. -/
inductive Instr where
  /-- 00E0 `CLS` (R151). -/
  | cls
  /-- 00EE `RET` (R82). -/
  | ret
  /-- 0nnn `SYS addr` (R81). -/
  | sys (nnn : Addr)
  /-- 1nnn `JP addr` (R83). -/
  | jp (nnn : Addr)
  /-- 2nnn `CALL addr` (R85). -/
  | call (nnn : Addr)
  /-- 3xkk `SE Vx, byte` (R86). -/
  | seByte (x : Nibble) (kk : Byte)
  /-- 4xkk `SNE Vx, byte` (R87). -/
  | sneByte (x : Nibble) (kk : Byte)
  /-- 5xy0 `SE Vx, Vy` (R88). -/
  | seReg (x y : Nibble)
  /-- 6xkk `LD Vx, byte` (R100). -/
  | ldByte (x : Nibble) (kk : Byte)
  /-- 7xkk `ADD Vx, byte` (R101). -/
  | addByte (x : Nibble) (kk : Byte)
  /-- 8xy0 `LD Vx, Vy` (R102). -/
  | ldReg (x y : Nibble)
  /-- 8xy1 `OR Vx, Vy` (R103). -/
  | orReg (x y : Nibble)
  /-- 8xy2 `AND Vx, Vy` (R104). -/
  | andReg (x y : Nibble)
  /-- 8xy3 `XOR Vx, Vy` (R105). -/
  | xorReg (x y : Nibble)
  /-- 8xy4 `ADD Vx, Vy` (R110). -/
  | addReg (x y : Nibble)
  /-- 8xy5 `SUB Vx, Vy` (R111). -/
  | subReg (x y : Nibble)
  /-- 8xy6 `SHR Vx {, Vy}`: `y` is encoded and unused (R112). -/
  | shr (x y : Nibble)
  /-- 8xy7 `SUBN Vx, Vy` (R113). -/
  | subnReg (x y : Nibble)
  /-- 8xyE `SHL Vx {, Vy}`: `y` is encoded and unused (R114). -/
  | shl (x y : Nibble)
  /-- 9xy0 `SNE Vx, Vy` (R89). -/
  | sneReg (x y : Nibble)
  /-- Annn `LD I, addr` (R130). -/
  | ldI (nnn : Addr)
  /-- Bnnn `JP V0, addr` (R84). -/
  | jpV0 (nnn : Addr)
  /-- Cxkk `RND Vx, byte` (R120). -/
  | rnd (x : Nibble) (kk : Byte)
  /-- Dxyn `DRW Vx, Vy, nibble` (R156). -/
  | drw (x y n : Nibble)
  /-- Ex9E `SKP Vx` (R170). -/
  | skp (x : Nibble)
  /-- ExA1 `SKNP Vx` (R171). -/
  | sknp (x : Nibble)
  /-- Fx07 `LD Vx, DT` (R172). -/
  | ldVxDt (x : Nibble)
  /-- Fx0A `LD Vx, K` (R176). -/
  | ldVxK (x : Nibble)
  /-- Fx15 `LD DT, Vx` (R173). -/
  | ldDtVx (x : Nibble)
  /-- Fx18 `LD ST, Vx` (R174). -/
  | ldStVx (x : Nibble)
  /-- Fx1E `ADD I, Vx` (R131). -/
  | addI (x : Nibble)
  /-- Fx29 `LD F, Vx` (R132). -/
  | ldF (x : Nibble)
  /-- Fx33 `LD B, Vx` (R133). -/
  | ldB (x : Nibble)
  /-- Fx55 `LD [I], Vx` (R140). -/
  | ldMemVx (x : Nibble)
  /-- Fx65 `LD Vx, [I]` (R142). -/
  | ldVxMem (x : Nibble)
  deriving DecidableEq, Repr

end Sys2Proof
end

