-- ==== Sys2Proof/Decode.lean ====
section
/-! DEFINITION. The decoder, by the table of spec/30_encoding.md R66, then the encoder, by the formats of R61. -/

namespace Sys2Proof

/-- Why a list of bytes is no instruction. -/
inductive DecodeError where
  /-- No entry of the table matches the word (R67, R70). -/
  | unknownInstruction (w : Word)
  /-- Fewer than the two bytes of an instruction (R60): never met by a fetch, which reads two. -/
  | truncated
  deriving DecidableEq, Repr

/-- `nnn = w & 0x0FFF` (R62). -/
def nnnOf (w : Word) : Addr := w.extractLsb' 0 12

/-- `x = (w >> 8) & 0xF` (R62). -/
def xOf (w : Word) : Nibble := w.extractLsb' 8 4

/-- `y = (w >> 4) & 0xF` (R62). -/
def yOf (w : Word) : Nibble := w.extractLsb' 4 4

/-- `n = w & 0xF` (R62). -/
def nOf (w : Word) : Nibble := w.extractLsb' 0 4

/-- `kk = w & 0xFF` (R62). -/
def kkOf (w : Word) : Byte := w.extractLsb' 0 8

/-- One entry of the opcode table: its mask, its match value, and the instruction that its operand shape reads from a word. -/
structure OpcodeRow where
  mask : Word
  pattern : Word
  read : Word → Instr

/-- `(mask & word) == match` (R67). -/
def OpcodeRow.hits (r : OpcodeRow) (w : Word) : Bool := r.mask &&& w == r.pattern

/-- Entries 1 to 10 of R66. -/
def opcodeRowsFlow : List OpcodeRow := [
  ⟨0xFFFF, 0x00E0, fun _ => .cls⟩,
  ⟨0xFFFF, 0x00EE, fun _ => .ret⟩,
  ⟨0xF000, 0x0000, fun w => .sys (nnnOf w)⟩,
  ⟨0xF000, 0x1000, fun w => .jp (nnnOf w)⟩,
  ⟨0xF000, 0x2000, fun w => .call (nnnOf w)⟩,
  ⟨0xF000, 0x3000, fun w => .seByte (xOf w) (kkOf w)⟩,
  ⟨0xF000, 0x4000, fun w => .sneByte (xOf w) (kkOf w)⟩,
  ⟨0xF00F, 0x5000, fun w => .seReg (xOf w) (yOf w)⟩,
  ⟨0xF000, 0x6000, fun w => .ldByte (xOf w) (kkOf w)⟩,
  ⟨0xF000, 0x7000, fun w => .addByte (xOf w) (kkOf w)⟩]

/-- Entries 11 to 20 of R66. -/
def opcodeRowsAlu : List OpcodeRow := [
  ⟨0xF00F, 0x8000, fun w => .ldReg (xOf w) (yOf w)⟩,
  ⟨0xF00F, 0x8001, fun w => .orReg (xOf w) (yOf w)⟩,
  ⟨0xF00F, 0x8002, fun w => .andReg (xOf w) (yOf w)⟩,
  ⟨0xF00F, 0x8003, fun w => .xorReg (xOf w) (yOf w)⟩,
  ⟨0xF00F, 0x8004, fun w => .addReg (xOf w) (yOf w)⟩,
  ⟨0xF00F, 0x8005, fun w => .subReg (xOf w) (yOf w)⟩,
  ⟨0xF00F, 0x8006, fun w => .shr (xOf w) (yOf w)⟩,
  ⟨0xF00F, 0x8007, fun w => .subnReg (xOf w) (yOf w)⟩,
  ⟨0xF00F, 0x800E, fun w => .shl (xOf w) (yOf w)⟩,
  ⟨0xF00F, 0x9000, fun w => .sneReg (xOf w) (yOf w)⟩]

/-- Entries 21 to 35 of R66. -/
def opcodeRowsHigh : List OpcodeRow := [
  ⟨0xF000, 0xA000, fun w => .ldI (nnnOf w)⟩,
  ⟨0xF000, 0xB000, fun w => .jpV0 (nnnOf w)⟩,
  ⟨0xF000, 0xC000, fun w => .rnd (xOf w) (kkOf w)⟩,
  ⟨0xF000, 0xD000, fun w => .drw (xOf w) (yOf w) (nOf w)⟩,
  ⟨0xF0FF, 0xE09E, fun w => .skp (xOf w)⟩,
  ⟨0xF0FF, 0xE0A1, fun w => .sknp (xOf w)⟩,
  ⟨0xF0FF, 0xF007, fun w => .ldVxDt (xOf w)⟩,
  ⟨0xF0FF, 0xF00A, fun w => .ldVxK (xOf w)⟩,
  ⟨0xF0FF, 0xF015, fun w => .ldDtVx (xOf w)⟩,
  ⟨0xF0FF, 0xF018, fun w => .ldStVx (xOf w)⟩,
  ⟨0xF0FF, 0xF01E, fun w => .addI (xOf w)⟩,
  ⟨0xF0FF, 0xF029, fun w => .ldF (xOf w)⟩,
  ⟨0xF0FF, 0xF033, fun w => .ldB (xOf w)⟩,
  ⟨0xF0FF, 0xF055, fun w => .ldMemVx (xOf w)⟩,
  ⟨0xF0FF, 0xF065, fun w => .ldVxMem (xOf w)⟩]

/-- The opcode table: exactly 35 entries, in the order the decoder scans them (R66). -/
def opcodeTable : List OpcodeRow := opcodeRowsFlow ++ opcodeRowsAlu ++ opcodeRowsHigh

/-- `resolve(w)`: the first entry that matches, else UnknownInstruction carrying the raw word (R67, R68, R70). It reads no state. -/
def resolve (w : Word) : Except DecodeError Instr :=
  match opcodeTable.find? (fun r => r.hits w) with
  | some r => .ok (r.read w)
  | none => .error (.unknownInstruction w)

/-- One instruction from a list of bytes, the byte at the lower address first and high (R43, R60), with the bytes that remain. -/
def decode : List Byte → Except DecodeError (Instr × List Byte)
  | hi :: lo :: rest =>
    match resolve (hi ++ lo) with
    | .ok i => .ok (i, rest)
    | .error e => .error e
  | [_] | [] => .error .truncated

/-- Bits 15 to 8 of a word: the byte at the lower address (R43). -/
def highByte (w : Word) : Byte := w.extractLsb' 8 8

/-- Bits 7 to 0 of a word: the byte at the higher address (R43). -/
def lowByte (w : Word) : Byte := w.extractLsb' 0 8

/-- The instruction word that the opcode table numbers `w`: one 16-bit word, bits above `nbits` zero. -/
def tableWord (nbits w : Nat) : Word := BitVec.ofNat 16 (w % 2 ^ nbits)

/-- The instruction this decoder reads from an instruction whose bits are `w`, numbered as spec/opcode_table.json numbers them. -/
def decodeTableWord (nbits w : Nat) : Option Instr :=
  match decode [highByte (tableWord nbits w), lowByte (tableWord nbits w)] with
  | .ok (i, _) => some i
  | .error _ => none

/-- Format A: opcode nibble, 12-bit address (R61). -/
def formatA (op : Nibble) (nnn : Addr) : Word := op ++ nnn

/-- Format X: opcode nibble, register, 8 fixed bits (R61). -/
def formatX (op x : Nibble) (low : Byte) : Word := op ++ x ++ low

/-- Format XK: opcode nibble, register, 8-bit immediate (R61). -/
def formatXK (op x : Nibble) (kk : Byte) : Word := op ++ x ++ kk

/-- Formats XY and XYN: opcode nibble, two registers, and a last nibble that is fixed (XY) or the operand `n` (XYN) (R61). -/
def formatXY (op x y low : Nibble) : Word := op ++ x ++ y ++ low

/-- The word of an instruction, by the patterns of R66. -/
def encode : Instr → Word
  | .cls => 0x00E0
  | .ret => 0x00EE
  | .sys nnn => formatA 0x0 nnn
  | .jp nnn => formatA 0x1 nnn
  | .call nnn => formatA 0x2 nnn
  | .seByte x kk => formatXK 0x3 x kk
  | .sneByte x kk => formatXK 0x4 x kk
  | .seReg x y => formatXY 0x5 x y 0x0
  | .ldByte x kk => formatXK 0x6 x kk
  | .addByte x kk => formatXK 0x7 x kk
  | .ldReg x y => formatXY 0x8 x y 0x0
  | .orReg x y => formatXY 0x8 x y 0x1
  | .andReg x y => formatXY 0x8 x y 0x2
  | .xorReg x y => formatXY 0x8 x y 0x3
  | .addReg x y => formatXY 0x8 x y 0x4
  | .subReg x y => formatXY 0x8 x y 0x5
  | .shr x y => formatXY 0x8 x y 0x6
  | .subnReg x y => formatXY 0x8 x y 0x7
  | .shl x y => formatXY 0x8 x y 0xE
  | .sneReg x y => formatXY 0x9 x y 0x0
  | .ldI nnn => formatA 0xA nnn
  | .jpV0 nnn => formatA 0xB nnn
  | .rnd x kk => formatXK 0xC x kk
  | .drw x y n => formatXY 0xD x y n
  | .skp x => formatX 0xE x 0x9E
  | .sknp x => formatX 0xE x 0xA1
  | .ldVxDt x => formatX 0xF x 0x07
  | .ldVxK x => formatX 0xF x 0x0A
  | .ldDtVx x => formatX 0xF x 0x15
  | .ldStVx x => formatX 0xF x 0x18
  | .addI x => formatX 0xF x 0x1E
  | .ldF x => formatX 0xF x 0x29
  | .ldB x => formatX 0xF x 0x33
  | .ldMemVx x => formatX 0xF x 0x55
  | .ldVxMem x => formatX 0xF x 0x65

/-- The two bytes of an instruction as memory holds them, the high byte at the lower address (R43). -/
def encodeBytes (i : Instr) : List Byte := [highByte (encode i), lowByte (encode i)]

end Sys2Proof
end

