-- ==== Sys2Proof/Config.lean ====
section
/-! DEFINITION. What an implementation fixes (spec/00_scope.md R6), and the free inputs of the host, which have no value here.

The parameters R6 calls fixed stand as numerals where they are used: 16 registers of 8 bits, I and PC of 16 bits, memory 0x000 to
0xFFF, 16 stack entries, a 64 by 32 framebuffer, at most 15 sprite rows, the 16 ms threshold. TICK_CADENCE_MS is timing only. -/

namespace Sys2Proof

/-- The parameters of R6 that are not fixed. They never change while the core runs (spec/10_state.md R30); `State` carries them
because `exec` and `step` take no other argument (log 1). -/
structure Params where
  /-- STACK_BASE, D0's `offset`: OPEN (R46, decision D1). -/
  stackBase : Nat
  /-- PROG_BASE, conventionally 0x200 (R236). -/
  progBase : Nat
  /-- FONT_BASE, conventionally 0x000 (R132, R236). -/
  fontBase : Nat
  /-- GLYPH_SIZE, 5 bytes a digit (R132). -/
  glyphSize : Nat
  /-- SYS_FAULTS: `SYS` raises UnknownInstruction (R81). -/
  sysFaults : Bool
  /-- LOGIC_RESETS_VF: `OR`, `AND`, `XOR` clear VF (R103 to R105). -/
  logicResetsVf : Bool
  /-- LOADSTORE_INCREMENTS_I: `LD [I], Vx` and `LD Vx, [I]` advance I (R140, R142). -/
  loadStoreIncrementsI : Bool
  /-- KEY_OOR_DOWN: the answer for a key value above 15 (R170, R171). -/
  keyOorDown : Bool
  deriving DecidableEq, Repr

/-- The values R6 gives. STACK_BASE, which it leaves OPEN, is 0xEA0 as in every test vector of spec/95_test_vectors.md
(DESIGN CHOICE, log 2: unsafe for a claim that rests on the value). -/
def Params.conventional : Params where
  stackBase := 0xEA0
  progBase := 0x200
  fontBase := 0x000
  glyphSize := 5
  sysFaults := false
  logicResetsVf := false
  loadStoreIncrementsI := false
  keyOorDown := false

/-- `draw8()`: the random byte of the `n`-th free input, under no law (R120, log 3: safe). -/
opaque Config.draw8 : Nat → Byte

/-- `KeyDown(k)` as sampled at the `n`-th free input (R26, log 4: safe). -/
opaque Config.keyDown : Nat → Nibble → Bool

/-- The host's KeyPress event, if one comes, at the `n`-th free input while the core waits for a key (R27, R177, log 5: safe). -/
opaque Config.keyPress : Nat → Option Nibble

/-- The `elapsed` argument of the EngineTick called at the `n`-th free input (R28, log 6: safe). -/
opaque Config.elapsed : Nat → Nat

/-- Whether the host clears DIRTY before the step at the `n`-th free input (R25, log 7: safe). -/
opaque Config.clearsDirty : Nat → Bool

/-- What `Peek()` answers on an empty stack: a value, or none for a failure (R29, spec/91_not_in_source.md N17, log 14: safe). -/
opaque Config.peekEmpty : Nat → Option Word

/-- Whether the `n`-th query made in the middle of an instruction sees the new value of pixel `(x, y)` (R53, log 15: safe). -/
opaque Config.seesNew : Nat → Nat → Nat → Bool

end Sys2Proof
end

