-- ==== Sys2Proof/Machine/State.lean ====
section
/-! DEFINITION. The state of the CORE (spec/10_state.md), the reasons a step can stop, and the state after reset. -/

namespace Sys2Proof.Machine

/-- The intended operation of a memory access, as a fault record carries it (R40, R191). -/
inductive Access where
  | read
  | write
  deriving DecidableEq, Repr

/-- The FAULT record: the cause and its information (spec/60_exceptions.md R190, R191). -/
inductive FaultRecord where
  /-- Code 1: the lowest address of the access above 0xFFF, and the operation (R192). -/
  | outOfRangeAccess (addr : Nat) (op : Access)
  /-- Code 2: a register index outside 0 to 15; only a host port meets it (R193). -/
  | invalidRegister (index : Nat)
  /-- Code 3: a push with 16 entries on the stack (R194). -/
  | stackOverflow
  /-- Code 4: a pop of an empty stack (R195). -/
  | stackUnderflow
  /-- Code 5: a word that is no instruction (R196). -/
  | unknownInstruction (w : Word)
  deriving DecidableEq, Repr

/-- RUN (R23). -/
inductive RunState where
  /-- RUNNING: a Step may be taken. -/
  | running
  /-- WAITKEY(x): suspended until a key is pressed, whose value goes to `V[x]`. -/
  | waitKey (x : Nibble)
  /-- HALTED: a fault was raised. -/
  | halted
  deriving DecidableEq, Repr

/-- Memory: the bytes that differ from what an unlisted address reads as, by rising address (R19). -/
abbrev Memory := List Host.Cell

/-- FB, indexed `FB[x][y]`: 64 columns of 32 pixels, true for on (R20). -/
abbrev Framebuffer := Vector (Vector Bool 32) 64

/-- Everything the spec gives the machine. -/
structure State where
  /-- V0 to VF (R10). -/
  v : Vector Byte 16
  /-- The address register I (R14). -/
  i : Word
  /-- The program counter (R15, R16). -/
  pc : Word
  /-- The delay timer (R17). -/
  dt : Byte
  /-- The sound timer (R17). -/
  st : Byte
  /-- The stack depth SP (R18). -/
  sp : Nat
  /-- MEM (R19). -/
  mem : Memory
  /-- FB (R20). -/
  fb : Framebuffer
  /-- The timer prescaler ACC, in milliseconds (R21). -/
  acc : Nat
  /-- The tone latch TONE (R22). -/
  tone : Bool
  /-- RUN (R23). -/
  run : RunState
  /-- FAULT (R23). -/
  fault : Option FaultRecord
  /-- The repaint flag DIRTY (R25). -/
  dirty : Bool
  /-- The argument of the EngineTick in progress, which a suspended EngineTick keeps (R177, R214, R215; log 6). -/
  elapsed : Nat
  /-- The model's own: the index of the next free input of the host (log 3). -/
  draws : Nat
  /-- The model's own: the parameters of R6, which no step changes (R30; log 1). -/
  params : Params
  deriving DecidableEq, Repr

/-- Why a step answers no next state. -/
inductive Fault where
  /-- Raised by `step` alone, when RUN is HALTED: no Step and no EngineTick is enabled until reset (R23, R200, R201). Safe: the
  hardware does nothing either (log 9). An instruction's own fault is a next state, with FAULT recorded and RUN HALTED (log 10). -/
  | halted
  deriving DecidableEq, Repr

/-- Why an instruction has no meaning. -/
inductive Refusal where
  /-- Raised by an arm of `exec` with no meaning yet, by its mnemonic; safe. No arm does. -/
  | notModelled (mnemonic : String)
  deriving DecidableEq, Repr

/-- The machine right after reset (R31, R230): all zero, the framebuffer off, RUNNING, FAULT empty, memory all 0x00.
The last three fields have no value in the spec or are the model's own (log 2, log 3, log 6). -/
def State.reset : State where
  v := Vector.replicate 16 0
  i := 0
  pc := 0
  dt := 0
  st := 0
  sp := 0
  mem := []
  fb := Vector.replicate 64 (Vector.replicate 32 false)
  acc := 0
  tone := false
  run := .running
  fault := none
  dirty := false
  elapsed := 0
  draws := 0
  params := Params.conventional

end Sys2Proof.Machine
end

