-- ==== Sys2Proof/Machine/Ops.lean ====
section
/-! DEFINITION. The named operations over memory, registers, the stack and the fault entry (spec/20_memory.md, spec/10_state.md,
spec/60_exceptions.md R200). -/

namespace Sys2Proof.Machine

/-- What one step, or one meaning, answers. -/
abbrev Result := Host.Outcome State Fault Refusal

/-! ### Memory -/

/-- What an address that memory does not list reads as: the reset contents (R31, R230). -/
def unlistedByte : Byte := 0x00

/-- `MEM[a]`, unchecked (R8, R19). -/
def readByte : Memory → Nat → Byte
  | [], _ => unlistedByte
  | (c, b) :: m, a => if c = a then b else readByte m a

/-- `MEM[a] <- b`, unchecked (R8, R19), keeping memory's canonical form. -/
def writeByte : Memory → Nat → Byte → Memory
  | [], a, b => if b = unlistedByte then [] else [(a, b)]
  | (c, d) :: m, a, b =>
    if a < c then (if b = unlistedByte then (c, d) :: m else (a, b) :: (c, d) :: m)
    else if a = c then (if b = unlistedByte then m else (a, b) :: m)
    else (c, d) :: writeByte m a b

/-- Memory's canonical form: addresses strictly rising, all inside 0x000 to 0xFFF, no entry equal to what it would read as unlisted. -/
abbrev Memory.wf (m : Memory) : Prop :=
  m.Pairwise (fun c d => c.1 < d.1) ∧ ∀ c ∈ m, c.1 ≤ 0xFFF ∧ c.2 ≠ unlistedByte

/-- A range of `n` bytes at `addr` is legal: it is empty, or it ends at 0xFFF or below (R40). Sums are exact (R51). -/
abbrev inRange (addr n : Nat) : Prop := n = 0 ∨ addr + n - 1 ≤ 0xFFF

/-- The bounds check of every access, made on the whole range before any byte moves; the fault carries the lowest address above
0xFFF and the operation (R40). -/
def checked {α : Type} (addr n : Nat) (op : Access) (a : α) : Except FaultRecord α :=
  if inRange addr n then .ok a else .error (.outOfRangeAccess (max addr 0x1000) op)

/-- The `n` bytes at `addr`, `addr + 1`, and so on, unchecked. -/
def bytesAt (m : Memory) : Nat → Nat → List Byte
  | _, 0 => []
  | addr, n + 1 => readByte m addr :: bytesAt m (addr + 1) n

/-- Stores a list of bytes at `addr`, `addr + 1`, and so on, unchecked. -/
def putBytes : Memory → Nat → List Byte → Memory
  | m, _, [] => m
  | m, addr, b :: bs => putBytes (writeByte m addr b) (addr + 1) bs

/-- `MemRead(addr, n)`, byte by byte (R41). -/
def readBlock (m : Memory) (addr n : Nat) : Except FaultRecord (List Byte) :=
  checked addr n .read (bytesAt m addr n)

/-- `MemRead(addr, 2)` as one big-endian value (R41, R43). -/
def readWord (m : Memory) (addr : Nat) : Except FaultRecord Word :=
  checked addr 2 .read (readByte m addr ++ readByte m (addr + 1))

/-- `MemWrite(addr, n, v)`, the bytes most significant first (R42). -/
def writeBlock (m : Memory) (addr : Nat) (bs : List Byte) : Except FaultRecord Memory :=
  checked addr bs.length .write (putBytes m addr bs)

/-! ### Registers -/

/-- `V[x]` (R10). -/
def State.getV (s : State) (x : Nibble) : Byte := s.v[x.toNat]'x.isLt

/-- `V[x] <- b` (R11). -/
def State.setV (s : State) (x : Nibble) (b : Byte) : State := { s with v := s.v.set x.toNat b x.isLt }

/-- `I <- w` (R14). -/
def State.setI (s : State) (w : Word) : State := { s with i := w }

/-- `PC <- w` (R15). -/
def State.setPc (s : State) (w : Word) : State := { s with pc := w }

/-- `DT <- b` (R17). -/
def State.setDt (s : State) (b : Byte) : State := { s with dt := b }

/-- `ST <- b` (R17). -/
def State.setSt (s : State) (b : Byte) : State := { s with st := b }

/-- `RUN <- r` (R23). -/
def State.setRun (s : State) (r : RunState) : State := { s with run := r }

/-- Replaces memory. -/
def State.setMem (s : State) (m : Memory) : State := { s with mem := m }

/-- Replaces memory and SP: what a push does (R47). -/
def State.setStack (s : State) (m : Memory) (depth : Nat) : State := { s with mem := m, sp := depth }

/-- Replaces the framebuffer and DIRTY (R20, R25). -/
def State.setFb (s : State) (fb : Framebuffer) (dirty : Bool) : State := { s with fb := fb, dirty := dirty }

/-- One free input of the host has been read: the next one is another (log 3). -/
def State.nextDraw (s : State) : State := { s with draws := s.draws + 1 }

/-- `PC <- (PC + 2) & 0xFFFF`: the advance of a Step (R72) and the skip of the next instruction (R90). -/
def State.advance (s : State) : State := s.setPc (s.pc + 2)

/-! ### Faults -/

/-- The cause code of a fault record (R191). -/
def FaultRecord.code : FaultRecord → Nat
  | .outOfRangeAccess _ _ => 1
  | .invalidRegister _ => 2
  | .stackOverflow => 3
  | .stackUnderflow => 4
  | .unknownInstruction _ => 5

/-- Fault entry: FAULT takes the record and RUN becomes HALTED; nothing else changes, and control goes nowhere (R198, R200). There is
no return from it (R201). -/
def raise (f : FaultRecord) (s : State) : State := { s with fault := some f, run := .halted }

/-- An instruction that may raise a fault: its result, or the fault taken in the state `s` before it (R8 `raise`, R198). -/
def orRaise (s : State) (r : Except FaultRecord State) : Result :=
  .next (match r with
    | .ok t => t
    | .error f => raise f s)

/-! ### The stack -/

/-- The address of stack entry `k`: its high byte's (R46). -/
def stackEntry (s : State) (k : Nat) : Nat := s.params.stackBase + 2 * k

/-- `Push(a)`: the depth test first, then the two bytes, big-endian (R43, R47). -/
def push (a : Word) (s : State) : Except FaultRecord State :=
  if s.sp = 16 then .error .stackOverflow
  else match writeBlock s.mem (stackEntry s s.sp) [highByte a, lowByte a] with
    | .ok m => .ok (s.setStack m (s.sp + 1))
    | .error f => .error f

/-- `Pop()`: the depth test first, then the read, then SP (R48); the two bytes stay in memory. -/
def pop (s : State) : Except FaultRecord (Word × State) :=
  if s.sp = 0 then .error .stackUnderflow
  else match readWord s.mem (stackEntry s (s.sp - 1)) with
    | .ok a => .ok (a, s.setStack s.mem (s.sp - 1))
    | .error f => .error f

end Sys2Proof.Machine
end

