-- ==== Sys2Proof/Machine/Flags.lean ====
section
/-! DEFINITION. The arithmetic results and the values VF receives (spec/10_state.md R13, spec/41_alu.md R110 to R116). -/

namespace Sys2Proof.Machine

/-- A flag as the byte VF holds. -/
def flagByte (c : Bool) : Byte := if c then 1 else 0

/-- `(a + b) & 0xFF`, computed exactly and then reduced (R115). -/
def sumByte (a b : Byte) : Byte := BitVec.ofNat 8 (a.toNat + b.toNat)

/-- VF of `ADD Vx, Vy`: 1 if the sum, before truncation, is above 255 (R110). -/
def carryFlag (a b : Byte) : Byte := flagByte (decide (a.toNat + b.toNat > 255))

/-- `(a - b) & 0xFF`, computed exactly on integers and then reduced (R115). -/
def diffByte (a b : Byte) : Byte := BitVec.ofInt 8 ((a.toNat : Int) - (b.toNat : Int))

/-- VF of a subtraction: 1 if no borrow occurred, minuend `a` at least subtrahend `b` (R111, R113). -/
def noBorrowFlag (a b : Byte) : Byte := flagByte (decide (a.toNat ≥ b.toNat))

/-- `a >> 1`, logical (R112). -/
def shiftRightByte (a : Byte) : Byte := BitVec.ofNat 8 (a.toNat / 2)

/-- VF of `SHR`: bit 0 of the old value (R112). -/
def bitZeroFlag (a : Byte) : Byte := flagByte (a.getLsbD 0)

/-- `(a << 1) & 0xFF` (R114). -/
def shiftLeftByte (a : Byte) : Byte := BitVec.ofNat 8 (a.toNat * 2)

/-- VF of `SHL`: bit 7 of the old value (R114). -/
def bitSevenFlag (a : Byte) : Byte := flagByte (a.getLsbD 7)

/-- The two writes of a flag-writing instruction: the result to `V[x]` first, the flag to VF last, so that VF holds the flag when
`x` = 15 (R116). -/
def State.setResultFlag (s : State) (x : Nibble) (result flag : Byte) : State := (s.setV x result).setV 15 flag

/-- The write of a logic instruction: `V[x] <- b`, and `V[15] <- 0` if LOGIC_RESETS_VF (R103 to R105). -/
def State.setLogic (s : State) (x : Nibble) (b : Byte) : State :=
  if s.params.logicResetsVf then (s.setV x b).setV 15 0 else s.setV x b

end Sys2Proof.Machine
end

