-- ==== Sys2Proof/Machine/Alu.lean ====
section
/-! DEFINITION. Register load, arithmetic, logic, shift and random (spec/41_alu.md). None of these raises a fault. -/

namespace Sys2Proof.Machine

/-- `LD Vx, byte` (R100). -/
def execLdByte (x : Nibble) (kk : Byte) (s : State) : Result := .next (s.setV x kk)

/-- `ADD Vx, byte` (R101): wraps, VF is not written. -/
def execAddByte (x : Nibble) (kk : Byte) (s : State) : Result := .next (s.setV x (sumByte (s.getV x) kk))

/-- `LD Vx, Vy` (R102). -/
def execLdReg (x y : Nibble) (s : State) : Result := .next (s.setV x (s.getV y))

/-- `OR Vx, Vy` (R103). -/
def execOrReg (x y : Nibble) (s : State) : Result := .next (s.setLogic x (s.getV x ||| s.getV y))

/-- `AND Vx, Vy` (R104). -/
def execAndReg (x y : Nibble) (s : State) : Result := .next (s.setLogic x (s.getV x &&& s.getV y))

/-- `XOR Vx, Vy` (R105). -/
def execXorReg (x y : Nibble) (s : State) : Result := .next (s.setLogic x (s.getV x ^^^ s.getV y))

/-- `ADD Vx, Vy` (R110): VF is the carry. -/
def execAddReg (x y : Nibble) (s : State) : Result :=
  .next (s.setResultFlag x (sumByte (s.getV x) (s.getV y)) (carryFlag (s.getV x) (s.getV y)))

/-- `SUB Vx, Vy` (R111): `V[x] - V[y]`, VF is 1 for no borrow. -/
def execSubReg (x y : Nibble) (s : State) : Result :=
  .next (s.setResultFlag x (diffByte (s.getV x) (s.getV y)) (noBorrowFlag (s.getV x) (s.getV y)))

/-- `SHR Vx {, Vy}` (R112): VF is the bit shifted out; `y` is unused. -/
def execShr (x _y : Nibble) (s : State) : Result :=
  .next (s.setResultFlag x (shiftRightByte (s.getV x)) (bitZeroFlag (s.getV x)))

/-- `SUBN Vx, Vy` (R113): `V[y] - V[x]`, VF is 1 for no borrow. -/
def execSubnReg (x y : Nibble) (s : State) : Result :=
  .next (s.setResultFlag x (diffByte (s.getV y) (s.getV x)) (noBorrowFlag (s.getV y) (s.getV x)))

/-- `SHL Vx {, Vy}` (R114): VF is the bit shifted out; `y` is unused. -/
def execShl (x _y : Nibble) (s : State) : Result :=
  .next (s.setResultFlag x (shiftLeftByte (s.getV x)) (bitSevenFlag (s.getV x)))

/-- `RND` on a given random byte `r`: `V[x] <- r & kk` (R120). -/
def randomTo (r : Byte) (x : Nibble) (kk : Byte) (s : State) : State := s.setV x (r &&& kk)

/-- `RND Vx, byte` (R120): the byte is a draw, another one at every execution. -/
def execRnd (x : Nibble) (kk : Byte) (s : State) : Result :=
  .next (randomTo (Config.draw8 s.draws) x kk s).nextDraw

end Sys2Proof.Machine
end

