-- ==== Sys2Proof/Machine/Graphics.lean ====
section
/-! DEFINITION. The framebuffer primitives (spec/43_display.md R150 to R153). -/

namespace Sys2Proof.Machine

/-- Column `px`, wrapped (R150). -/
abbrev columnOf (px : Nat) : Nat := px % 64

/-- Row `py`, wrapped (R150). -/
abbrev rowOf (py : Nat) : Nat := py % 32

/-- `FB[px mod 64][py mod 32]`: coordinates always wrap before use (R150). -/
def pixel (fb : Framebuffer) (px py : Nat) : Bool :=
  (fb[columnOf px]'(Nat.mod_lt _ (by decide)))[rowOf py]'(Nat.mod_lt _ (by decide))

/-- Sets `FB[px mod 64][py mod 32]`. -/
def setPixel (fb : Framebuffer) (px py : Nat) (b : Bool) : Framebuffer :=
  fb.set (columnOf px)
    ((fb[columnOf px]'(Nat.mod_lt _ (by decide))).set (rowOf py) b (Nat.mod_lt _ (by decide)))
    (Nat.mod_lt _ (by decide))

/-- The framebuffer with every pixel off (R151). -/
def blankFb : Framebuffer := Vector.replicate 64 (Vector.replicate 32 false)

/-- `DrawPixel(px, py, b)`: the pixel is XORed with the bit; the second component is the collision `old && !new` (R152). -/
def drawPixel (fb : Framebuffer) (px py : Nat) (b : Bool) : Framebuffer × Bool :=
  let old := pixel fb px py
  let new := old ^^ b
  (setPixel fb px py new, old && !new)

/-- The eight pixels of a sprite row, bit 7 first: the leftmost (R153, decision D17). -/
def rowBits (row : Byte) : List Bool := (List.range 8).map (fun c => row.getLsbD (7 - c))

/-- Draws bits at columns `px`, `px + 1`, and so on of one row, the collisions OR-reduced (R153). -/
def drawBits (py : Nat) : Nat → List Bool → Framebuffer × Bool → Framebuffer × Bool
  | _, [], d => d
  | px, b :: bs, d => drawBits py (px + 1) bs ((drawPixel d.1 px py b).1, d.2 || (drawPixel d.1 px py b).2)

/-- Draws rows at `py`, `py + 1`, and so on (R153). -/
def drawRows (px : Nat) : Nat → List Byte → Framebuffer × Bool → Framebuffer × Bool
  | _, [], d => d
  | py, row :: rows, d => drawRows px (py + 1) rows (drawBits py px (rowBits row) d)

/-- `DrawSprite(rows, px, py)`: the framebuffer after the draw, and whether any pixel went from on to off (R153). -/
def drawSprite (fb : Framebuffer) (rows : List Byte) (px py : Nat) : Framebuffer × Bool :=
  drawRows px py rows (fb, false)

end Sys2Proof.Machine
end

