-- ==== Sys2Proof/Machine/Operands.lean ====
section
/-! DEFINITION. The operand forms: addresses, runs of registers, the I-relative block, the skip, the key sample. -/

namespace Sys2Proof.Machine

/-- `nnn` as a PC or I value: unsigned, zero-extended, not scaled (R63). -/
def addrOperand (nnn : Addr) : Word := nnn.setWidth 16

/-- The target of `JP V0, addr`: `(nnn + V[0]) & 0xFFFF`, always V0 (R84, decision D15). -/
def indexedTarget (nnn : Addr) (s : State) : Word := BitVec.ofNat 16 (nnn.toNat + (s.getV 0).toNat)

/-- The sum that `ADD I, Vx` writes: `(I + V[x]) & 0xFFFF` (R131). -/
def indexSum (x : Nibble) (s : State) : Word := BitVec.ofNat 16 (s.i.toNat + (s.getV x).toNat)

/-- The address of a glyph: `(FONT_BASE + GLYPH_SIZE * V[x]) & 0xFFFF`, the whole of `V[x]` (R132). -/
def glyphAddr (x : Nibble) (s : State) : Word :=
  BitVec.ofNat 16 (s.params.fontBase + s.params.glyphSize * (s.getV x).toNat)

/-- `V[0]`, `V[1]`, up to `n` registers (R140). -/
def firstRegs (s : State) (n : Nat) : List Byte := (List.range n).map (fun k => s.getV (BitVec.ofNat 4 k))

/-- Writes a list of bytes to `V[k]`, `V[k + 1]`, and so on (R142). -/
def putRegs : State → Nat → List Byte → State
  | s, _, [] => s
  | s, k, b :: bs => putRegs (s.setV (BitVec.ofNat 4 k) b) (k + 1) bs

/-- The `n` bytes at I, checked as one range (R40, R155). -/
def readAtI (n : Nat) (s : State) : Except FaultRecord (List Byte) := readBlock s.mem s.i.toNat n

/-- Stores bytes at I, checked as one range: nothing is stored on a fault (R40, R133, R140). -/
def writeAtI (bs : List Byte) (s : State) : Except FaultRecord State :=
  match writeBlock s.mem s.i.toNat bs with
  | .ok m => .ok (s.setMem m)
  | .error f => .error f

/-- `if LOADSTORE_INCREMENTS_I: I <- (I + x + 1) & 0xFFFF` (R140, R142). -/
def incrementI (x : Nibble) (s : State) : State :=
  if s.params.loadStoreIncrementsI then s.setI (BitVec.ofNat 16 (s.i.toNat + x.toNat + 1)) else s

/-- Hundreds, tens and ones of a byte (R133). -/
def bcdDigits (b : Byte) : List Byte :=
  [BitVec.ofNat 8 (b.toNat / 100), BitVec.ofNat 8 (b.toNat / 10 % 10), BitVec.ofNat 8 (b.toNat % 10)]

/-- Skips the next instruction if `c` (R90): PC, already advanced, advances by 2 again. -/
def skipIf (c : Bool) (s : State) : State := if c then s.advance else s

/-- `(k <= 15) ? KeyDown(k) : KEY_OOR_DOWN` for `k = V[x]`, the key level as sampled at this Step (R26, R170, R171). -/
def keyIsDown (x : Nibble) (s : State) : Bool :=
  if (s.getV x).toNat ≤ 15 then Config.keyDown s.draws ((s.getV x).setWidth 4) else s.params.keyOorDown

end Sys2Proof.Machine
end

