-- ==== Sys2Proof/Machine/Display.lean ====
section
/-! DEFINITION. The display instructions (spec/43_display.md). -/

namespace Sys2Proof.Machine

/-- `CLS` (R151): every pixel off, DIRTY set even if the screen was clear. -/
def execCls (s : State) : Result := .next (s.setFb blankFb true)

/-- The effect of a `DRW` whose sprite rows have been read: the draw, DIRTY if any pixel changed value, VF last (R156). -/
def drawAt (rows : List Byte) (px py : Nat) (s : State) : State :=
  (s.setFb (drawSprite s.fb rows px py).1 (s.dirty || decide ((drawSprite s.fb rows px py).1 ≠ s.fb))).setV 15
    (flagByte (drawSprite s.fb rows px py).2)

/-- `DRW Vx, Vy, nibble` (R156): `n` sprite rows at I, at column `V[x]`, row `V[y]`; VF is the collision. -/
def execDrw (x y n : Nibble) (s : State) : Result :=
  orRaise s (match readAtI n.toNat s with
    | .ok rows => .ok (drawAt rows (s.getV x).toNat (s.getV y).toNat s)
    | .error f => .error f)

end Sys2Proof.Machine
end

