-- ==== Sys2Proof/Machine/Flow.lean ====
section
/-! DEFINITION. Control transfer (spec/40_flow.md). PC has already been advanced by the Step (R72). -/

namespace Sys2Proof.Machine

/-- `RET` (R82): `PC <- Pop()`. -/
def execRet (s : State) : Result :=
  orRaise s (match pop s with
    | .ok (a, t) => .ok (t.setPc a)
    | .error f => .error f)

/-- `SYS addr` (R81): nothing, or UnknownInstruction with the word itself if SYS_FAULTS. -/
def execSys (nnn : Addr) (s : State) : Result :=
  orRaise s (if s.params.sysFaults then .error (.unknownInstruction (encode (.sys nnn))) else .ok s)

/-- `JP addr` (R83): `PC <- nnn`. -/
def execJp (nnn : Addr) (s : State) : Result := .next (s.setPc (addrOperand nnn))

/-- `CALL addr` (R85): `Push(PC)`, then `PC <- nnn`. -/
def execCall (nnn : Addr) (s : State) : Result :=
  orRaise s (match push s.pc s with
    | .ok t => .ok (t.setPc (addrOperand nnn))
    | .error f => .error f)

/-- `JP V0, addr` (R84): `PC <- (nnn + V[0]) & 0xFFFF`. -/
def execJpV0 (nnn : Addr) (s : State) : Result := .next (s.setPc (indexedTarget nnn s))

/-- `SE Vx, byte` (R86): skips if `V[x] = kk`. -/
def execSeByte (x : Nibble) (kk : Byte) (s : State) : Result := .next (skipIf (s.getV x == kk) s)

/-- `SNE Vx, byte` (R87): skips if `V[x] != kk`. -/
def execSneByte (x : Nibble) (kk : Byte) (s : State) : Result := .next (skipIf (s.getV x != kk) s)

/-- `SE Vx, Vy` (R88): skips if `V[x] = V[y]`. -/
def execSeReg (x y : Nibble) (s : State) : Result := .next (skipIf (s.getV x == s.getV y) s)

/-- `SNE Vx, Vy` (R89): skips if `V[x] != V[y]`. -/
def execSneReg (x y : Nibble) (s : State) : Result := .next (skipIf (s.getV x != s.getV y) s)

end Sys2Proof.Machine
end

