-- ==== Sys2Proof/Machine/IndexMemory.lean ====
section
/-! DEFINITION. The address register and memory instructions (spec/42_index_memory.md). -/

namespace Sys2Proof.Machine

/-- `LD I, addr` (R130). -/
def execLdI (nnn : Addr) (s : State) : Result := .next (s.setI (addrOperand nnn))

/-- `ADD I, Vx` (R131): wraps at 0x10000, VF is not written. -/
def execAddI (x : Nibble) (s : State) : Result := .next (s.setI (indexSum x s))

/-- `LD F, Vx` (R132). -/
def execLdF (x : Nibble) (s : State) : Result := .next (s.setI (glyphAddr x s))

/-- `LD B, Vx` (R133): three bytes at I, hundreds lowest. -/
def execLdB (x : Nibble) (s : State) : Result := orRaise s (writeAtI (bcdDigits (s.getV x)) s)

/-- `LD [I], Vx` (R140): V0 to Vx, `x + 1` bytes at I. -/
def execLdMemVx (x : Nibble) (s : State) : Result :=
  orRaise s (match writeAtI (firstRegs s (x.toNat + 1)) s with
    | .ok t => .ok (incrementI x t)
    | .error f => .error f)

/-- `LD Vx, [I]` (R142): `x + 1` bytes at I to V0 to Vx. -/
def execLdVxMem (x : Nibble) (s : State) : Result :=
  orRaise s (match readAtI (x.toNat + 1) s with
    | .ok bs => .ok (incrementI x (putRegs s 0 bs))
    | .error f => .error f)

end Sys2Proof.Machine
end

