-- ==== Sys2Proof/Machine/TimerKey.lean ====
section
/-! DEFINITION. The timer and keypad instructions (spec/44_timer_key.md). None of these raises a fault. -/

namespace Sys2Proof.Machine

/-- `SKP Vx` (R170): skips if the key `V[x]` is down now. -/
def execSkp (x : Nibble) (s : State) : Result := .next (skipIf (keyIsDown x s) s).nextDraw

/-- `SKNP Vx` (R171): skips if the key `V[x]` is not down now. -/
def execSknp (x : Nibble) (s : State) : Result := .next (skipIf (!keyIsDown x s) s).nextDraw

/-- `LD Vx, DT` (R172). -/
def execLdVxDt (x : Nibble) (s : State) : Result := .next (s.setV x s.dt)

/-- `LD Vx, K` (R176): the core waits for a key; nothing else changes. -/
def execLdVxK (x : Nibble) (s : State) : Result := .next (s.setRun (.waitKey x))

/-- `LD DT, Vx` (R173). -/
def execLdDtVx (x : Nibble) (s : State) : Result := .next (s.setDt (s.getV x))

/-- `LD ST, Vx` (R174): TONE is not touched. -/
def execLdStVx (x : Nibble) (s : State) : Result := .next (s.setSt (s.getV x))

end Sys2Proof.Machine
end

