-- ==== Sys2Proof/Machine/Timers.lean ====
section
/-! DEFINITION. The timers, their prescaler, the tone gate, and the release of a key wait (spec/60_exceptions.md R211 to R215,
spec/44_timer_key.md R177). -/

namespace Sys2Proof.Machine

/-- A countdown by 1, floored at 0 (R211). -/
def countDown (b : Byte) : Byte := BitVec.ofNat 8 (b.toNat - 1)

/-- The tone gate: TONE is started when ST is above 0 and it is not playing, and stopped when ST is 0 and it is (R212). -/
def toneGate (st : Byte) (tone : Bool) : Bool :=
  if st.toNat > 0 ∧ tone = false then true
  else if st.toNat = 0 ∧ tone = true then false
  else tone

/-- TimerTick: both timers count down, then the tone gate looks at the new ST (R211, R212). -/
def timerTick (s : State) : State :=
  { s with dt := countDown s.dt, st := countDown s.st, tone := toneGate (countDown s.st) s.tone }

/-- The end of an EngineTick: `elapsed` is added to ACC and, if ACC reaches 16, one TimerTick happens and 16 is subtracted (R214).
Each field is chosen by itself, so that a free `elapsed` leaves every other field a value. -/
def accumulate (s : State) : State :=
  { s with
    acc := if s.acc + s.elapsed ≥ 16 then s.acc + s.elapsed - 16 else s.acc + s.elapsed
    dt := if s.acc + s.elapsed ≥ 16 then (timerTick s).dt else s.dt
    st := if s.acc + s.elapsed ≥ 16 then (timerTick s).st else s.st
    tone := if s.acc + s.elapsed ≥ 16 then (timerTick s).tone else s.tone }

/-- After the Step of an EngineTick: a fault has abandoned the rest, a key wait suspends it, otherwise it completes (R200, R214, R215). -/
def finishTick (s : State) : State :=
  match s.run with
  | .running => accumulate s
  | .waitKey _ => s
  | .halted => s

/-- `KeyPress(k)`: while RUN = WAITKEY(x), `V[x] <- k`, RUN <- RUNNING, and the suspended EngineTick completes; in any other run
state it has no effect and is not queued (R27, R177, R215). -/
def keyPress (k : Nibble) (s : State) : State :=
  match s.run with
  | .waitKey x => accumulate ((s.setV x (k.setWidth 8)).setRun .running)
  | .running => s
  | .halted => s

end Sys2Proof.Machine
end

