-- ==== Sys2Proof/Machine/Engine.lean ====
section
/-! DEFINITION. The Step (spec/30_encoding.md R72), the EngineTick around it (spec/60_exceptions.md R214), the wait for a key
(spec/44_timer_key.md R176, R177), and the host's moves between Steps. -/

namespace Sys2Proof.Machine

/-- The fetch: the big-endian word at PC and PC + 1, checked as one range and not wrapped (R72, R51). -/
def fetch (s : State) : Except FaultRecord Word := readWord s.mem s.pc.toNat

/-- The Step on a fetched word: PC advances, the word is decoded, the instruction runs; an unknown word is a fault with PC
advanced (R72, R196). -/
def runWord (w : Word) (s : State) : Result :=
  match decode [highByte w, lowByte w] with
  | .ok (i, _) => exec i s.advance
  | .error _ => .next (raise (.unknownInstruction w) s.advance)

/-- One Step while RUN = RUNNING; a fetch fault leaves PC where it is (R72). -/
def coreStep (s : State) : Result :=
  match fetch s with
  | .ok w => runWord w s
  | .error f => .next (raise f s)

/-- `EngineTick(elapsed)` while RUN = RUNNING: the Step, then the accumulation of time (R214). -/
def engineTick (elapsed : Nat) (s : State) : Result :=
  match coreStep { s with elapsed := elapsed } with
  | .next t => .next (finishTick t)
  | .fault r => .fault r
  | .refused r => .refused r

/-- The host clears DIRTY (R25). -/
def clearDirty (s : State) : State := { s with dirty := false }

/-- What the host may do between Steps that a step shows: it may clear DIRTY (R25, R237; log 7). One free input is read. -/
def hostTurn (s : State) : State :=
  { s with dirty := if Config.clearsDirty s.draws then (clearDirty s).dirty else s.dirty, draws := s.draws + 1 }

/-- One moment of waiting for a key: a KeyPress arrives and releases the wait, or none does and everything stays (R176, R177). -/
def waitTurn (event : Option Nibble) (s : State) : State :=
  match event with
  | some k => keyPress k s
  | none => s

end Sys2Proof.Machine
end

