-- ==== Sys2Proof/Machine/Step.lean ====
section
/-! DEFINITION. One step of the machine, and the placing of an instruction where it fetches. -/

namespace Sys2Proof.Machine

/-- One step: in RUNNING one EngineTick with a free `elapsed` (R214); in WAITKEY one moment of the wait, with a free KeyPress or
none (R176, R177); in HALTED nothing is enabled (R200, R201). -/
def step (s : State) : Host.Outcome State Fault Refusal :=
  match s.run with
  | .running => engineTick (Config.elapsed s.draws) (hostTurn s)
  | .waitKey _ => .next (waitTurn (Config.keyPress s.draws) (hostTurn s))
  | .halted => .fault .halted

/-- PC where a word can be fetched: PC itself, or 0x200 if no word lies at it. -/
def fetchablePc (pc : Word) : Word := if pc.toNat ≤ 0xFFE then pc else 0x200

/-- `s` with the instruction whose bits are `w` stored, high byte first, where the next Step fetches. Where `s` would not fetch at
all, RUN is RUNNING with FAULT empty, and PC is 0x200 (log 13). -/
def State.withFetchWord (s : State) (nbits w : Nat) : State :=
  { s with
    mem := putBytes s.mem (fetchablePc s.pc).toNat [highByte (tableWord nbits w), lowByte (tableWord nbits w)]
    pc := fetchablePc s.pc
    run := .running
    fault := none }

end Sys2Proof.Machine
end

