-- ==== Sys2Proof/Machine/Ports.lean ====
section
/-! DEFINITION. The host's ports and queries (spec/10_state.md R24 to R29), the reset of a core and the boot sequence
(spec/70_reset_and_hazards.md R230, R236). They are no steps: the host uses the writing ports only before the first Step or after a halt (R237; log 11). A failure is reported
to the host and never enters FAULT or RUN (R29). -/

namespace Sys2Proof.Machine

/-- `Load(bytes, addr)`: every value masked to 8 bits; out of range, nothing is written (R29). -/
def load (values : List Nat) (addr : Nat) (s : State) : Except FaultRecord State :=
  match writeBlock s.mem addr (values.map (fun n => BitVec.ofNat 8 n)) with
  | .ok m => .ok (s.setMem m)
  | .error f => .error f

/-- `SetPC(a)`: `PC <- a & 0xFFFF` (R29). -/
def setPcPort (a : Nat) (s : State) : State := s.setPc (BitVec.ofNat 16 a)

/-- `ReadMem(addr)`: a checked read of one byte (R29). -/
def readMem (addr : Nat) (s : State) : Except FaultRecord Byte := checked addr 1 .read (readByte s.mem addr)

/-- `ReadBlock(addr, len)`: a checked read (R29). -/
def readBlockPort (addr len : Nat) (s : State) : Except FaultRecord (List Byte) := readBlock s.mem addr len

/-- `GetV(i)`: an index outside 0 to 15 fails with InvalidRegister (R12, R29). -/
def getVPort (i : Nat) (s : State) : Except FaultRecord Byte :=
  if i < 16 then .ok (s.getV (BitVec.ofNat 4 i)) else .error (.invalidRegister i)

/-- `SetV(i, v)`: masks the value to 8 bits; an index outside 0 to 15 fails with InvalidRegister (R11, R12, R29). -/
def setVPort (i v : Nat) (s : State) : Except FaultRecord State :=
  if i < 16 then .ok (s.setV (BitVec.ofNat 4 i) (BitVec.ofNat 8 v)) else .error (.invalidRegister i)

/-- `Peek()`: the top stack entry, SP unchanged (R29). On an empty stack the spec states no result (N17): a free one (log 14). -/
def peek (s : State) : Except FaultRecord Word :=
  if s.sp = 0 then
    match Config.peekEmpty s.draws with
    | some a => .ok a
    | none => .error .stackUnderflow
  else readWord s.mem (stackEntry s (s.sp - 1))

/-- `PixelAt(x, y)` between Steps (R24); coordinates wrap (R150). -/
def pixelAt (x y : Nat) (s : State) : Bool := pixel s.fb x y

/-- The `n`-th `PixelAt(x, y)` made while an instruction takes `before` to `after`: the old or the new value, for each pixel by
itself (R53, decision D27; log 15). -/
def pixelAtDuring (n x y : Nat) (before after : State) : Bool :=
  if Config.seesNew n x y then pixelAt x y after else pixelAt x y before

/-- The 80 bytes of the hexadecimal font, 5 a digit (R239). -/
def font : List Nat := [
  0xF0, 0x90, 0x90, 0x90, 0xF0,
  0x20, 0x60, 0x20, 0x20, 0x70,
  0xF0, 0x10, 0xF0, 0x80, 0xF0,
  0xF0, 0x10, 0xF0, 0x10, 0xF0,
  0x90, 0x90, 0xF0, 0x10, 0x10,
  0xF0, 0x80, 0xF0, 0x10, 0xF0,
  0xF0, 0x80, 0xF0, 0x90, 0xF0,
  0xF0, 0x10, 0x20, 0x40, 0x40] ++ [
  0xF0, 0x90, 0xF0, 0x90, 0xF0,
  0xF0, 0x90, 0xF0, 0x10, 0xF0,
  0xF0, 0x90, 0xF0, 0x90, 0x90,
  0xE0, 0x90, 0xE0, 0x90, 0xE0,
  0xF0, 0x80, 0x80, 0x80, 0xF0,
  0xE0, 0x90, 0x90, 0x90, 0xE0,
  0xF0, 0x80, 0xF0, 0x80, 0xF0,
  0xF0, 0x80, 0xF0, 0x80, 0x80]

/-- Reset of the core `s`: every piece of state at its value of R31, which ends a halt and discards a wait, while the core's own
parameters are not touched (R230). The index of free inputs goes on, so that what the host supplies later is not a repetition (log 21). -/
def resetCore (s : State) : State := { State.reset with params := s.params, draws := s.draws }

/-- The boot sequence: the font at FONT_BASE, the program at PROG_BASE, then `SetPC(PROG_BASE)` (R236). STACK_BASE is in `params`
already, and the EngineTicks that follow are steps. -/
def boot (program : List Nat) (s : State) : Except FaultRecord State :=
  match load font s.params.fontBase s with
  | .error f => .error f
  | .ok t =>
    match load program t.params.progBase t with
    | .error f => .error f
    | .ok u => .ok (setPcPort u.params.progBase u)

/-- The 32 bytes of the stack window share no address with the `n` bytes at `base` (R46, R238). -/
abbrev windowClearOf (p : Params) (base n : Nat) : Prop :=
  n = 0 ∨ p.stackBase + 31 < base ∨ base + n ≤ p.stackBase

/-- The host's precondition on the stack window: inside memory, clear of the program's bytes and, if the program uses them, of the 80
font bytes (R46, R238). The core does not check it. -/
abbrev stackWindowSafe (programLength : Nat) (usesFont : Bool) (p : Params) : Prop :=
  p.stackBase + 31 ≤ 0xFFF ∧ windowClearOf p p.progBase programLength ∧ (usesFont = true → windowClearOf p p.fontBase 80)

end Sys2Proof.Machine
end

