-- ==== Sys2Proof/Safety.lean ====
section
/-! DEFINITION. What the claims call a legal state, a safe one, and a finished run. -/

namespace Sys2Proof.Machine

/-- The records a Step can leave in FAULT: an out-of-range address is above 0xFFF (R40), and InvalidRegister is never raised by a
Step (R193). -/
def FaultRecord.byStep : FaultRecord → Bool
  | .outOfRangeAccess addr _ => decide (0x1000 ≤ addr)
  | .invalidRegister _ => false
  | .stackOverflow => true
  | .stackUnderflow => true
  | .unknownInstruction _ => true

/-- The invariant of the machine: every step keeps it, and reset has it. -/
structure State.Inv (s : State) : Prop where
  /-- Memory is in canonical form, inside 0x000 to 0xFFF (R19, R40). -/
  memory : s.mem.wf
  /-- SP is 0 to 16 (R18). -/
  depth : s.sp ≤ 16
  /-- FAULT holds a record exactly when the core is halted (R23, R200). -/
  halt : s.run = .halted ↔ s.fault.isSome = true
  /-- The record, if any, is one a Step can raise (R191 to R196). -/
  record : ∀ f ∈ s.fault, f.byStep = true

/-- A safe state: no fault has been raised. "A halted state is never a final state of a correct run" (R200). -/
def State.Safe (s : State) : Prop := s.run ≠ .halted

/-- A finished run, the model's choice among what R251 allows (log 22): the core is running and PC is at a `JP` to its own address. A
claim about a program's end takes it as its premise; a halt is no such end (R200). -/
def State.Finished (s : State) : Prop :=
  s.run = .running ∧ ∃ (w : Word) (nnn : Addr), fetch s = .ok w ∧ resolve w = .ok (.jp nnn) ∧ addrOperand nnn = s.pc

/-! ### What an instruction may write: the vocabulary of the frame claims -/

/-- Whether instruction `i` may write `V[r]`, VF's side effects included (R13, R100 to R114, R120, R142, R156, R172). -/
def writesReg (p : Params) : Instr → Nibble → Bool
  | .cls, _ | .ret, _ | .sys _, _ | .jp _, _ | .call _, _ | .jpV0 _, _ => false
  | .seByte _ _, _ | .sneByte _ _, _ | .seReg _ _, _ | .sneReg _ _, _ => false
  | .ldI _, _ | .addI _, _ | .ldF _, _ | .ldB _, _ | .ldMemVx _, _ => false
  | .skp _, _ | .sknp _, _ | .ldVxK _, _ | .ldDtVx _, _ | .ldStVx _, _ => false
  | .ldByte x _, r | .addByte x _, r | .rnd x _, r => r == x
  | .ldReg x _, r | .ldVxDt x, r => r == x
  | .orReg x _, r | .andReg x _, r | .xorReg x _, r => r == x || (p.logicResetsVf && r == 15)
  | .addReg x _, r | .subReg x _, r | .subnReg x _, r | .shr x _, r | .shl x _, r => r == x || r == 15
  | .drw _ _ _, r => r == 15
  | .ldVxMem x, r => decide (r.toNat ≤ x.toNat)

/-- The bytes instruction `i` stores to in state `s`: the first address and how many (R45). -/
def storedRange (s : State) : Instr → Nat × Nat
  | .call _ => (stackEntry s s.sp, 2)
  | .ldB _ => (s.i.toNat, 3)
  | .ldMemVx x => (s.i.toNat, x.toNat + 1)
  | .cls | .ret | .sys _ | .jp _ | .jpV0 _ | .seByte _ _ | .sneByte _ _ | .seReg _ _ | .sneReg _ _ => (0, 0)
  | .ldByte _ _ | .addByte _ _ | .ldReg _ _ | .orReg _ _ | .andReg _ _ | .xorReg _ _ => (0, 0)
  | .addReg _ _ | .subReg _ _ | .shr _ _ | .subnReg _ _ | .shl _ _ | .rnd _ _ => (0, 0)
  | .ldI _ | .addI _ | .ldF _ | .ldVxMem _ | .drw _ _ _ => (0, 0)
  | .skp _ | .sknp _ | .ldVxDt _ | .ldVxK _ | .ldDtVx _ | .ldStVx _ => (0, 0)

/-- Address `a` lies in a range. -/
def Within (a : Nat) (range : Nat × Nat) : Prop := range.1 ≤ a ∧ a < range.1 + range.2

/-- Whether `i` is one of the instructions that write I: `LD I`, `ADD I`, `LD F`, and the register-array instructions under
LOADSTORE_INCREMENTS_I (R14, R140, R142). -/
def writesI (p : Params) : Instr → Bool
  | .ldI _ | .addI _ | .ldF _ => true
  | .ldMemVx _ | .ldVxMem _ => p.loadStoreIncrementsI
  | .cls | .ret | .sys _ | .jp _ | .call _ | .jpV0 _ | .seByte _ _ | .sneByte _ _ | .seReg _ _ | .sneReg _ _ => false
  | .ldByte _ _ | .addByte _ _ | .ldReg _ _ | .orReg _ _ | .andReg _ _ | .xorReg _ _ => false
  | .addReg _ _ | .subReg _ _ | .shr _ _ | .subnReg _ _ | .shl _ _ | .rnd _ _ => false
  | .drw _ _ _ | .ldB _ | .skp _ | .sknp _ | .ldVxDt _ | .ldVxK _ | .ldDtVx _ | .ldStVx _ => false

/-- Whether `i` is a control transfer or a skip: the instructions that write PC beyond the Step's advance (R80, R90). -/
def writesPc : Instr → Bool
  | .ret | .jp _ | .call _ | .jpV0 _ | .seByte _ _ | .sneByte _ _ | .seReg _ _ | .sneReg _ _ | .skp _ | .sknp _ => true
  | .cls | .sys _ | .ldByte _ _ | .addByte _ _ | .ldReg _ _ | .orReg _ _ | .andReg _ _ | .xorReg _ _ => false
  | .addReg _ _ | .subReg _ _ | .shr _ _ | .subnReg _ _ | .shl _ _ | .rnd _ _ | .drw _ _ _ => false
  | .ldI _ | .addI _ | .ldF _ | .ldB _ | .ldMemVx _ | .ldVxMem _ | .ldVxDt _ | .ldVxK _ | .ldDtVx _ | .ldStVx _ => false

/-- Bit of the sprite `rows` drawn at `(px, py)` that falls on pixel `(X, Y)`, columns and rows wrapping: the row is the distance
from `py` to `Y` modulo 32, the column the distance from `px` to `X` modulo 64, bit 7 leftmost (R150, R153). -/
def spriteBitAt (rows : List Byte) (px py X Y : Nat) : Bool :=
  let c := (X + 64 - px % 64) % 64
  let j := (Y + 32 - py % 32) % 32
  decide (c < 8) && (rows[j]?.getD 0).getLsbD (7 - c)

end Sys2Proof.Machine
end

