-- ==== Sys2Proof/Certificates/Slice0/Obligations.lean ====
section
/-! DEFINITION. The statements for the provers. Each docstring names the rule of spec/ that the statement formalises.
A next state is written as the old one with the changed fields named, so that every other field is unchanged. -/

open Sys2Proof Sys2Proof.Machine

/-! ### Encoding (spec/30_encoding.md) -/

/-- Decoding the bytes of any well-formed instruction, whatever bytes follow, gives it back with what follows (R62, R66, R67). -/
def Obligations.DecodeOfEncodeIsTheInstruction : Prop :=
  ∀ (i : Instr) (rest : List Byte), i.wf = true → decode (encodeBytes i ++ rest) = .ok (i, rest)

/-- A word that resolves to an instruction is that instruction's word, and the instruction is well formed: every legal word has one
meaning and no bit of it is dropped (R66, R67). -/
def Obligations.EncodeOfResolveIsTheWord : Prop :=
  ∀ (w : Word) (i : Instr), resolve w = .ok i → i.wf = true ∧ encode i = w

/-- R68: the only words two entries match are 0x00E0 and 0x00EE, by entry 3 (`SYS`) and by entries 1 and 2, and they are `CLS` and
`RET`; every other word 0x0000 to 0x0FFF is `SYS`. -/
def Obligations.OnlySysOverlapsAndLoses : Prop :=
  (∀ (w : Word) (j k : Nat) (r q : OpcodeRow), j < k → opcodeTable[j]? = some r → opcodeTable[k]? = some q →
    r.hits w = true → q.hits w = true → k = 2 ∧ (j = 0 ∧ w = 0x00E0 ∨ j = 1 ∧ w = 0x00EE)) ∧
  resolve 0x00E0 = .ok .cls ∧ resolve 0x00EE = .ok .ret ∧
  (∀ nnn : Addr, nnn ≠ 0x0E0 → nnn ≠ 0x0EE → resolve (nnn.setWidth 16) = .ok (.sys nnn))

/-- R67 and R70: the words that resolve to nothing, each refused with the raw word, are exactly the five groups of R70's table. The
table is the spec's own inference ("derived: from rule R66"). -/
def Obligations.IllegalWordsAreTheFiveGroups : Prop :=
  ∀ w : Word, (∀ i, resolve w ≠ .ok i) ↔
    (w.extractLsb' 12 4 = 0x5 ∧ nOf w ≠ 0) ∨
    (w.extractLsb' 12 4 = 0x8 ∧ nOf w ∈ [0x8, 0x9, 0xA, 0xB, 0xC, 0xD, 0xF]) ∨
    (w.extractLsb' 12 4 = 0x9 ∧ nOf w ≠ 0) ∨
    (w.extractLsb' 12 4 = 0xE ∧ kkOf w ∉ [0x9E, 0xA1]) ∨
    (w.extractLsb' 12 4 = 0xF ∧ kkOf w ∉ [0x07, 0x0A, 0x15, 0x18, 0x1E, 0x29, 0x33, 0x55, 0x65])

/-- Words of every family decode as spec/95_test_vectors.md 2.1 says, D0's own three examples among them. -/
def Obligations.SampleWordsDecode : Prop :=
  decode [0x00, 0xE0] = .ok (.cls, []) ∧ decode [0x6A, 0x12] = .ok (.ldByte 0xA 0x12, []) ∧
  decode [0xFF, 0xFF] = .error (.unknownInstruction 0xFFFF) ∧ decode [0x00, 0xE1] = .ok (.sys 0x0E1, []) ∧
  decode [0x8A, 0xBE] = .ok (.shl 0xA 0xB, []) ∧ decode [0xD1, 0x2F] = .ok (.drw 1 2 15, []) ∧
  decode [0xA1, 0x23] = .ok (.ldI 0x123, []) ∧ decode [0xF3, 0x0A] = .ok (.ldVxK 3, [])

/-! ### The step (R72, R214) -/

/-- A step in RUNNING is an EngineTick (log 8), before which the host may have cleared DIRTY (`hostTurn`, log 7) and for which it has
given `elapsed` (log 6); on a word at PC that decodes, it is `exec` of the decoded instruction with PC advanced by 2, after which
`finishTick` accumulates time (R214). Where `exec` stops, the step stops. -/
def Obligations.StepRunsTheDecodedInstruction : Prop :=
  (∀ s : State, s.run = .running → step s = engineTick (Config.elapsed s.draws) (hostTurn s)) ∧
  ∀ (s : State) (i : Instr), s.run = .running → s.pc.toNat ≤ 0xFFE →
    decode [readByte s.mem s.pc.toNat, readByte s.mem (s.pc.toNat + 1)] = .ok (i, []) →
    step s = (match exec i { hostTurn s with elapsed := Config.elapsed s.draws, pc := s.pc + 2 } with
      | .next t => .next (finishTick t)
      | .fault r => .fault r
      | .refused r => .refused r)

/-- R72, R192: a fetch with PC above 0xFFE is the fault OutOfRangeAccess(max(PC, 0x1000), read), with PC where it was and the rest of
the EngineTick abandoned. DIRTY may have been cleared by the host, and `elapsed`, `draws` are the model's inputs (log 3, 6, 7). -/
def Obligations.FetchBeyondMemoryHalts : Prop :=
  ∀ s : State, s.run = .running → s.pc.toNat > 0xFFE →
    ∃ t, step s = .next t ∧ t.fault = some (.outOfRangeAccess (max s.pc.toNat 0x1000) .read) ∧
      t = { s with run := .halted, fault := t.fault, dirty := t.dirty, elapsed := t.elapsed, draws := s.draws + 1 }

/-- R196: a fetched word that matches no entry halts with UnknownInstruction, the raw word, and PC advanced by 2; so does `SYS` under
SYS_FAULTS, with its own word (PC being already advanced when it runs). -/
def Obligations.UnknownInstructionHaltsWithTheWord : Prop :=
  (∀ (s : State) (w : Word), s.pc.toNat ≤ 0xFFE →
    w = readByte s.mem s.pc.toNat ++ readByte s.mem (s.pc.toNat + 1) → (∀ i, resolve w ≠ .ok i) →
    coreStep s = .next { s with pc := s.pc + 2, run := .halted, fault := some (.unknownInstruction w) }) ∧
  (∀ (s : State) (nnn : Addr), s.params.sysFaults = true →
    exec (.sys nnn) s = .next { s with run := .halted, fault := some (.unknownInstruction (nnn.setWidth 16)) })

/-- R23, R200, R201: in HALTED no step is enabled (answering the fault `halted` is the model's choice, log 9) and a KeyPress has no
effect. -/
def Obligations.HaltedTakesNoStep : Prop :=
  ∀ (s : State) (k : Nibble), s.run = .halted → step s = .fault .halted ∧ keyPress k s = s

/-- R198: when a Step raises a fault, the state is the state before it, except PC (advanced by 2 unless the fault is the fetch's), RUN and
FAULT. -/
def Obligations.FaultsArePrecise : Prop :=
  ∀ s t : State, s.run = .running → coreStep s = .next t → t.run = .halted →
    (∃ f, t.fault = some f) ∧
    t = { s with pc := (if s.pc.toNat > 0xFFE then s.pc else s.pc + 2), run := .halted, fault := t.fault }

/-- A word placed where the machine fetches is the instruction the next step runs: the fetch sees the latest store (R43, R52, R55), the
Step runs it with PC advanced (R72), and the EngineTick accumulates time after it (R214). The model's choices in it: the placing
(log 13), the latched free `elapsed` (log 6), the host's clearing of DIRTY first (log 7), and that a step is an EngineTick (log 8). -/
def Obligations.PlacedWordRunsNext : Prop :=
  ∀ (s : State) (w : Nat) (i : Instr), s.mem.wf → decodeTableWord 16 w = some i →
    ∃ t, exec i { hostTurn (s.withFetchWord 16 w) with elapsed := Config.elapsed s.draws, pc := (s.withFetchWord 16 w).pc + 2 } = .next t ∧
      step (s.withFetchWord 16 w) = .next (finishTick t)

/-- The largest value a Step that fetches inside memory can leave in PC is 0x10FE, unless the instruction is `RET` (R16, marked there as
the spec's own inference). -/
def Obligations.PcStaysBelowTheJumpBound : Prop :=
  ∀ (s t : State), s.run = .running → s.pc.toNat ≤ 0xFFE →
    resolve (readByte s.mem s.pc.toNat ++ readByte s.mem (s.pc.toNat + 1)) ≠ .ok .ret →
    coreStep s = .next t → t.pc.toNat ≤ 0x10FE

/-! ### Timers, tone, the wait for a key (spec/60_exceptions.md, spec/44_timer_key.md) -/

/-- R211, R212: TimerTick takes 1 from DT and from ST, floored at 0, and then TONE is on exactly if the new ST is above 0. -/
def Obligations.TimerTickCountsDownAndGates : Prop :=
  ∀ s : State, (timerTick s).dt.toNat = s.dt.toNat - 1 ∧ (timerTick s).st.toNat = s.st.toNat - 1 ∧
    (timerTick s).tone = decide (s.st.toNat - 1 > 0) ∧
    timerTick s = { s with dt := (timerTick s).dt, st := (timerTick s).st, tone := (timerTick s).tone }

/-- After `k` TimerTicks, `k` at least 1, TONE is on exactly if `k` is below the ST written: a tone sounds for ST - 1 periods, and ST = 1
never sounds (R212, its consequences marked as derived). -/
def Obligations.ToneSoundsOnePeriodLess : Prop :=
  ∀ (s : State) (k : Nat), 1 ≤ k → (timerTick^[k] s).tone = decide (k < s.st.toNat)

/-- R214: EngineTick(elapsed) is the Step, then ACC grows by elapsed, and if it reaches 16 one TimerTick happens and 16 is taken from it;
a fault or a key wait ends it at the Step. -/
def Obligations.EngineTickAccumulatesElapsed : Prop :=
  ∀ (e : Nat) (s t : State), coreStep { s with elapsed := e } = .next t →
    (t.run = .running → t.acc + e < 16 → engineTick e s = .next { t with acc := t.acc + e }) ∧
    (t.run = .running → t.acc + e ≥ 16 → engineTick e s = .next { timerTick t with acc := t.acc + e - 16 }) ∧
    (t.run ≠ .running → engineTick e s = .next t)

/-- Sixteen accumulations of 1 ms from any ACC below 16 make exactly one TimerTick and leave ACC as it was (R214 and D0's property E8,
"never more, never less"). -/
def Obligations.SixteenMillisecondsMakeOneTick : Prop :=
  ∀ s : State, s.acc < 16 → s.elapsed = 1 → accumulate^[16] s = timerTick s

/-- R176, R177: `LD Vx, K` changes RUN alone, to WAITKEY(x); and a step in WAITKEY changes nothing of the core unless a key arrives, and then
is that KeyPress. Only the host's DIRTY may be cleared, and the model's input index moves (log 3, 5, 7). -/
def Obligations.KeyWaitHoldsEverything : Prop :=
  (∀ (x : Nibble) (s : State), exec (.ldVxK x) s = .next { s with run := .waitKey x }) ∧
  (∀ (x : Nibble) (s : State), s.run = .waitKey x → ∃ d : Bool, (d = true → s.dirty = true) ∧
    step s = .next (match Config.keyPress s.draws with
      | none => { s with dirty := d, draws := s.draws + 1 }
      | some k => keyPress k { s with dirty := d, draws := s.draws + 1 }))

/-- R27, R177, R215: KeyPress(k) in WAITKEY(x) writes k to V[x] and makes RUN RUNNING, and the suspended EngineTick adds its elapsed; in
any other run state it changes nothing. Where the pending elapsed stands, the field `State.elapsed`, is the model's choice (log 6); in a
WAITKEY state that did not run `LD Vx, K` the field holds whatever the state says. -/
def Obligations.KeyPressReleasesTheWait : Prop :=
  (∀ (x k : Nibble) (s : State), s.run = .waitKey x →
    (∀ r, ((keyPress k s).getV r).toNat = if r = x then k.toNat else (s.getV r).toNat) ∧
    (s.acc + s.elapsed < 16 → keyPress k s = { s with v := (keyPress k s).v, run := .running, acc := s.acc + s.elapsed }) ∧
    (s.acc + s.elapsed ≥ 16 → keyPress k s = { timerTick s with v := (keyPress k s).v, run := .running, acc := s.acc + s.elapsed - 16 })) ∧
  (∀ (k : Nibble) (s : State), (∀ x, s.run ≠ .waitKey x) → keyPress k s = s)

/-! ### Memory and the stack (spec/20_memory.md) -/

/-- R41: MemRead checks the whole range, answers the bytes in ascending order, or raises OutOfRangeAccess(max(addr, 0x1000), read). -/
def Obligations.MemReadIsCheckedAndOrdered : Prop :=
  ∀ (m : Memory) (addr n : Nat),
    (n > 0 ∧ addr + n - 1 > 0xFFF → readBlock m addr n = .error (.outOfRangeAccess (max addr 0x1000) .read)) ∧
    (n = 0 ∨ addr + n - 1 ≤ 0xFFF → ∃ bs, readBlock m addr n = .ok bs ∧ bs.length = n ∧
      ∀ k < n, bs[k]? = some (readByte m (addr + k)))

/-- R42: MemWrite checks the whole range, stores its bytes in ascending order and nothing else, or raises OutOfRangeAccess(max(addr,
0x1000), write). Memory is in canonical form, which every step keeps (`StepKeepsTheInvariant`). -/
def Obligations.MemWriteStoresExactlyItsBytes : Prop :=
  ∀ (m : Memory) (addr : Nat) (bs : List Byte), m.wf →
    (bs.length > 0 ∧ addr + bs.length - 1 > 0xFFF →
      writeBlock m addr bs = .error (.outOfRangeAccess (max addr 0x1000) .write)) ∧
    (bs.length = 0 ∨ addr + bs.length - 1 ≤ 0xFFF → ∃ m', writeBlock m addr bs = .ok m' ∧ m'.wf ∧
      (∀ k < bs.length, bs[k]? = some (readByte m' (addr + k))) ∧
      (∀ a, ¬Within a (addr, bs.length) → readByte m' a = readByte m a))

/-- R47: Push tests the depth first, writes the address big-endian at STACK_BASE + 2*SP, and increments SP. -/
def Obligations.PushWritesBigEndianEntry : Prop :=
  ∀ (a : Word) (s : State),
    (s.sp = 16 → push a s = .error .stackOverflow) ∧
    (s.sp ≠ 16 → s.params.stackBase + 2 * s.sp + 1 > 0xFFF →
      push a s = .error (.outOfRangeAccess (max (s.params.stackBase + 2 * s.sp) 0x1000) .write)) ∧
    (s.sp ≠ 16 → s.params.stackBase + 2 * s.sp + 1 ≤ 0xFFF → s.mem.wf → ∃ t, push a s = .ok t ∧
      (readByte t.mem (s.params.stackBase + 2 * s.sp)).toNat = a.toNat / 256 ∧
      (readByte t.mem (s.params.stackBase + 2 * s.sp + 1)).toNat = a.toNat % 256 ∧
      (∀ c, ¬Within c (s.params.stackBase + 2 * s.sp, 2) → readByte t.mem c = readByte s.mem c) ∧
      t = { s with mem := t.mem, sp := s.sp + 1 })

/-- R48: Pop tests the depth first, reads the top entry big-endian and decrements SP; memory is unchanged, whatever wrote those bytes;
and "push then pop returns the same address (round-trip)", with the depth as it was. -/
def Obligations.PopReadsTheTopEntry : Prop :=
  (∀ (a : Word) (s t : State), s.mem.wf → push a s = .ok t → ∃ u, pop t = .ok (a, u) ∧ u.sp = s.sp ∧ u.mem = t.mem) ∧
  ∀ s : State,
    (s.sp = 0 → pop s = .error .stackUnderflow) ∧
    (s.sp ≠ 0 → s.params.stackBase + 2 * (s.sp - 1) + 1 > 0xFFF →
      pop s = .error (.outOfRangeAccess (max (s.params.stackBase + 2 * (s.sp - 1)) 0x1000) .read)) ∧
    (s.sp ≠ 0 → s.params.stackBase + 2 * (s.sp - 1) + 1 ≤ 0xFFF → ∃ a, pop s = .ok (a, { s with sp := s.sp - 1 }) ∧
      a.toNat = 256 * (readByte s.mem (s.params.stackBase + 2 * (s.sp - 1))).toNat
        + (readByte s.mem (s.params.stackBase + 2 * (s.sp - 1) + 1)).toNat)

/-! ### Reset, the invariant, and what never changes -/

/-- R230: after reset every register, timer, pixel and memory byte is zero, RUN is RUNNING and FAULT is empty (the spec's own decision
D24 over its source); reset of any core, a halted or waiting one too, gives that state with the core's own parameters, which it does
not touch, and with the model's index of free inputs going on (log 21). -/
def Obligations.ResetLeavesAllZero : Prop :=
  (∀ s : State, (resetCore s).params = s.params ∧ (resetCore s).draws = s.draws) ∧
  ∀ t : State, (t = State.reset ∨ ∃ s, t = resetCore s) →
    (∀ r, t.getV r = 0) ∧ t.i = 0 ∧ t.pc = 0 ∧ t.dt = 0 ∧ t.st = 0 ∧ t.sp = 0 ∧ t.acc = 0 ∧ t.tone = false ∧ t.dirty = false ∧
    (∀ a, readByte t.mem a = 0x00) ∧ (∀ x y, pixel t.fb x y = false) ∧ t.run = .running ∧ t.fault = none

/-- The invariant holds at reset, and after the reset of any core (R230). -/
def Obligations.ResetSatisfiesTheInvariant : Prop := State.reset.Inv ∧ ∀ s : State, (resetCore s).Inv

/-- From every state that meets the invariant a step gives one that meets it: memory in canonical form and inside 0x000 to 0xFFF (R19,
R40), SP at most 16 (R18), FAULT filled exactly when halted (R23, R200), and only with a record a Step can raise (R191 to R193). -/
def Obligations.StepKeepsTheInvariant : Prop := ∀ s t : State, s.Inv → step s = .next t → t.Inv

/-- R30: the parameters never change while the core runs. -/
def Obligations.StepsNeverChangeParameters : Prop := ∀ s t : State, step s = .next t → t.params = s.params

/-! ### What each instruction may write: frames over the whole instruction set -/

/-- Every general register an instruction does not name as a destination, VF's side effects included, is unchanged (R13, R80, R116). -/
def Obligations.OnlyDestinationRegistersChange : Prop :=
  ∀ (i : Instr) (s t : State) (r : Nibble), exec i s = .next t → writesReg s.params i r = false → t.getV r = s.getV r

/-- R14: I is written by `LD I`, `ADD I` and `LD F`, under LOADSTORE_INCREMENTS_I by the register-array instructions, and by nothing else. -/
def Obligations.OnlyIndexInstructionsWriteI : Prop :=
  ∀ (i : Instr) (s t : State), exec i s = .next t → writesI s.params i = false → t.i = s.i

/-- R19, R45: every byte of memory outside the bytes an instruction stores to is unchanged; only `CALL`, `LD B` and `LD [I]` store. -/
def Obligations.OnlyStoredBytesChange : Prop :=
  ∀ (i : Instr) (s t : State) (a : Nat), s.mem.wf → exec i s = .next t → ¬Within a (storedRange s i) →
    readByte t.mem a = readByte s.mem a

/-- R20, R25: only `CLS` and `DRW` write the framebuffer or DIRTY. -/
def Obligations.OnlyDisplayInstructionsWriteTheFramebuffer : Prop :=
  ∀ (i : Instr) (s t : State), exec i s = .next t → i ≠ .cls → (∀ x y n, i ≠ .drw x y n) → t.fb = s.fb ∧ t.dirty = s.dirty

/-- R16, R80: the control transfers and the skips aside, no instruction writes PC, which the Step has already advanced. -/
def Obligations.OnlyTransfersAndSkipsWritePc : Prop :=
  ∀ (i : Instr) (s t : State), exec i s = .next t → writesPc i = false → t.pc = s.pc

/-- R17, R18, R21, R22: SP is written by `CALL` and `RET` alone, DT by `LD DT`, ST by `LD ST`, and ACC and TONE by no instruction. Nor is
the pending elapsed (R28, R215; its field is the model's choice, log 6) or any parameter (R30; that State carries them is log 1's). -/
def Obligations.TimersDepthAndToneHaveFewWriters : Prop :=
  ∀ (i : Instr) (s t : State), exec i s = .next t →
    (i ≠ .ret → (∀ nnn, i ≠ .call nnn) → t.sp = s.sp) ∧ ((∀ x, i ≠ .ldDtVx x) → t.dt = s.dt) ∧
    ((∀ x, i ≠ .ldStVx x) → t.st = s.st) ∧ t.acc = s.acc ∧ t.tone = s.tone ∧ t.elapsed = s.elapsed ∧ t.params = s.params

/-- R23, R198: an instruction leaves RUN and FAULT alone, or raises a fault and then changes nothing else, or is `LD Vx, K`. -/
def Obligations.RunAndFaultChangeOnlyByFaultOrKeyWait : Prop :=
  ∀ (i : Instr) (s t : State), exec i s = .next t →
    (t.run = s.run ∧ t.fault = s.fault) ∨
    (∃ f, t = { s with run := .halted, fault := some f }) ∨
    (∃ x, i = .ldVxK x ∧ t = { s with run := .waitKey x })

/-- ST, ACC, TONE, RUN, FAULT, DIRTY and the pending elapsed cannot be read as data: two states that differ only in them run every
instruction to the same registers, memory, framebuffer, PC, I, DT and SP. R203 says it of ST, ACC, TONE, RUN and FAULT, and R25 that
nothing in the core reads DIRTY; the pending elapsed (log 6) and the index of free inputs (log 3) are the model's own fields. -/
def Obligations.HiddenStateIsNeverReadAsData : Prop :=
  ∀ (i : Instr) (s u : State),
    u = { s with st := u.st, acc := u.acc, tone := u.tone, run := u.run, fault := u.fault, dirty := u.dirty, elapsed := u.elapsed } →
    ∃ s' u', exec i s = .next s' ∧ exec i u = .next u' ∧ u'.v = s'.v ∧ u'.i = s'.i ∧ u'.pc = s'.pc ∧ u'.dt = s'.dt ∧
      u'.sp = s'.sp ∧ u'.mem = s'.mem ∧ u'.fb = s'.fb ∧ u'.draws = s'.draws

/-! ### Control transfer (spec/40_flow.md); PC is already advanced when an instruction runs -/

/-- R81, R83, R84: `SYS` changes nothing, or under SYS_FAULTS raises UnknownInstruction with its own word; `JP` sets PC to nnn, `JP V0` to
nnn + V0, and nothing else changes. -/
def Obligations.SysDoesNothingAndJumpsSetPc : Prop :=
  ∀ (nnn : Addr) (s : State),
    (s.params.sysFaults = false → exec (.sys nnn) s = .next s) ∧
    (s.params.sysFaults = true →
      exec (.sys nnn) s = .next { s with run := .halted, fault := some (.unknownInstruction (nnn.setWidth 16)) }) ∧
    (∃ t, exec (.jp nnn) s = .next t ∧ t.pc.toNat = nnn.toNat ∧ t = { s with pc := t.pc }) ∧
    (∃ t, exec (.jpV0 nnn) s = .next t ∧ t.pc.toNat = nnn.toNat + (s.getV 0).toNat ∧ t = { s with pc := t.pc })

/-- R85, R194: `CALL` pushes the advanced PC big-endian and jumps; with 16 entries it raises StackOverflow and nothing is written; with a
misplaced stack window it raises OutOfRangeAccess (R192). -/
def Obligations.CallPushesAndJumps : Prop :=
  ∀ (nnn : Addr) (s : State),
    (s.sp = 16 → exec (.call nnn) s = .next { s with run := .halted, fault := some .stackOverflow }) ∧
    (s.sp ≠ 16 → s.params.stackBase + 2 * s.sp + 1 > 0xFFF → exec (.call nnn) s =
      .next { s with run := .halted, fault := some (.outOfRangeAccess (max (s.params.stackBase + 2 * s.sp) 0x1000) .write) }) ∧
    (s.sp ≠ 16 → s.params.stackBase + 2 * s.sp + 1 ≤ 0xFFF → s.mem.wf → ∃ t, exec (.call nnn) s = .next t ∧
      t.pc.toNat = nnn.toNat ∧ t = { s with pc := t.pc, sp := s.sp + 1, mem := t.mem } ∧
      (readByte t.mem (s.params.stackBase + 2 * s.sp)).toNat = s.pc.toNat / 256 ∧
      (readByte t.mem (s.params.stackBase + 2 * s.sp + 1)).toNat = s.pc.toNat % 256 ∧
      (∀ a, ¬Within a (s.params.stackBase + 2 * s.sp, 2) → readByte t.mem a = readByte s.mem a))

/-- R82, R195: `RET` pops PC; on an empty stack it raises StackUnderflow, with SP, PC and memory unchanged; with a misplaced stack window
OutOfRangeAccess (R192). -/
def Obligations.RetPopsPc : Prop :=
  ∀ s : State,
    (s.sp = 0 → exec .ret s = .next { s with run := .halted, fault := some .stackUnderflow }) ∧
    (s.sp ≠ 0 → s.params.stackBase + 2 * (s.sp - 1) + 1 > 0xFFF → exec .ret s =
      .next { s with run := .halted, fault := some (.outOfRangeAccess (max (s.params.stackBase + 2 * (s.sp - 1)) 0x1000) .read) }) ∧
    (s.sp ≠ 0 → s.params.stackBase + 2 * (s.sp - 1) + 1 ≤ 0xFFF → ∃ t, exec .ret s = .next t ∧
      t = { s with pc := t.pc, sp := s.sp - 1 } ∧
      t.pc.toNat = 256 * (readByte s.mem (s.params.stackBase + 2 * (s.sp - 1))).toNat
        + (readByte s.mem (s.params.stackBase + 2 * (s.sp - 1) + 1)).toNat)

/-- R86 to R89: the four register skips add 2 to the advanced PC exactly when their comparison holds, and change nothing else. -/
def Obligations.SkipsCompareAndAddTwo : Prop :=
  ∀ (x y : Nibble) (kk : Byte) (s : State),
    exec (.seByte x kk) s = .next { s with pc := if s.getV x = kk then s.pc + 2 else s.pc } ∧
    exec (.sneByte x kk) s = .next { s with pc := if s.getV x ≠ kk then s.pc + 2 else s.pc } ∧
    exec (.seReg x y) s = .next { s with pc := if s.getV x = s.getV y then s.pc + 2 else s.pc } ∧
    exec (.sneReg x y) s = .next { s with pc := if s.getV x ≠ s.getV y then s.pc + 2 else s.pc }

/-! ### Load, arithmetic, logic (spec/41_alu.md) -/

/-- R100 to R102: `LD Vx, byte`, `ADD Vx, byte` (modulo 256, no flag) and `LD Vx, Vy` write V[x] and nothing else. -/
def Obligations.LoadsAndAddByteWriteVx : Prop :=
  ∀ (x y : Nibble) (kk : Byte) (s : State),
    (∃ t, exec (.ldByte x kk) s = .next t ∧ t = { s with v := t.v } ∧ ∀ r, t.getV r = if r = x then kk else s.getV r) ∧
    (∃ t, exec (.addByte x kk) s = .next t ∧ t = { s with v := t.v } ∧
      ∀ r, (t.getV r).toNat = if r = x then ((s.getV x).toNat + kk.toNat) % 256 else (s.getV r).toNat) ∧
    (∃ t, exec (.ldReg x y) s = .next t ∧ t = { s with v := t.v } ∧ ∀ r, t.getV r = if r = x then s.getV y else s.getV r)

/-- R103 to R105: `OR`, `AND`, `XOR` write V[x]; VF is then 0 under LOGIC_RESETS_VF and otherwise unchanged but as the destination. -/
def Obligations.LogicWritesVx : Prop :=
  ∀ (x y : Nibble) (s : State),
    (∃ t, exec (.orReg x y) s = .next t ∧ t = { s with v := t.v } ∧
      ∀ r, t.getV r = if r = 15 ∧ s.params.logicResetsVf = true then 0 else if r = x then s.getV x ||| s.getV y else s.getV r) ∧
    (∃ t, exec (.andReg x y) s = .next t ∧ t = { s with v := t.v } ∧
      ∀ r, t.getV r = if r = 15 ∧ s.params.logicResetsVf = true then 0 else if r = x then s.getV x &&& s.getV y else s.getV r) ∧
    (∃ t, exec (.xorReg x y) s = .next t ∧ t = { s with v := t.v } ∧
      ∀ r, t.getV r = if r = 15 ∧ s.params.logicResetsVf = true then 0 else if r = x then s.getV x ^^^ s.getV y else s.getV r)

/-- R110, R116: `ADD Vx, Vy` leaves the sum modulo 256 in V[x] and the carry in VF, VF last. -/
def Obligations.AddSetsCarry : Prop :=
  ∀ (x y : Nibble) (s : State), ∃ t, exec (.addReg x y) s = .next t ∧ t = { s with v := t.v } ∧
    ∀ r, (t.getV r).toNat =
      if r = 15 then (if (s.getV x).toNat + (s.getV y).toNat > 255 then 1 else 0)
      else if r = x then ((s.getV x).toNat + (s.getV y).toNat) % 256 else (s.getV r).toNat

/-- R111, R113, R116: `SUB` leaves V[x] - V[y] and `SUBN` leaves V[y] - V[x], modulo 256, in V[x], and 1 in VF exactly if no borrow
occurred (minuend at least subtrahend), VF last. -/
def Obligations.SubtractionsSetNoBorrow : Prop :=
  ∀ (x y : Nibble) (s : State),
    (∃ t, exec (.subReg x y) s = .next t ∧ t = { s with v := t.v } ∧
      ∀ r, (t.getV r).toNat =
        if r = 15 then (if (s.getV x).toNat ≥ (s.getV y).toNat then 1 else 0)
        else if r = x then ((s.getV x).toNat + 256 - (s.getV y).toNat) % 256 else (s.getV r).toNat) ∧
    (∃ t, exec (.subnReg x y) s = .next t ∧ t = { s with v := t.v } ∧
      ∀ r, (t.getV r).toNat =
        if r = 15 then (if (s.getV y).toNat ≥ (s.getV x).toNat then 1 else 0)
        else if r = x then ((s.getV y).toNat + 256 - (s.getV x).toNat) % 256 else (s.getV r).toNat)

/-- R112, R114, R116: `SHR` halves V[x] and `SHL` doubles it modulo 256; VF is the bit shifted out, written last; Vy is neither read nor
written. -/
def Obligations.ShiftsMoveOneBitIntoVf : Prop :=
  ∀ (x y : Nibble) (s : State),
    (∃ t, exec (.shr x y) s = .next t ∧ t = { s with v := t.v } ∧
      ∀ r, (t.getV r).toNat =
        if r = 15 then (s.getV x).toNat % 2 else if r = x then (s.getV x).toNat / 2 else (s.getV r).toNat) ∧
    (∃ t, exec (.shl x y) s = .next t ∧ t = { s with v := t.v } ∧
      ∀ r, (t.getV r).toNat =
        if r = 15 then (s.getV x).toNat / 128 else if r = x then (s.getV x).toNat * 2 % 256 else (s.getV r).toNat)

/-- R120: `RND` writes the drawn byte masked with kk to V[x]; the byte is free and the next draw is another one (log 3). -/
def Obligations.RndMasksAFreeByte : Prop :=
  ∀ (x : Nibble) (kk : Byte) (s : State), ∃ t, exec (.rnd x kk) s = .next t ∧
    t = { s with v := t.v, draws := s.draws + 1 } ∧
    ∀ r, t.getV r = if r = x then Config.draw8 s.draws &&& kk else s.getV r

/-! ### Address register and memory (spec/42_index_memory.md) -/

/-- R130 to R132: `LD I` sets I to nnn, `ADD I` adds V[x] modulo 0x10000 with no flag, `LD F` points I at glyph V[x]; nothing else changes. -/
def Obligations.IndexInstructionsSetI : Prop :=
  ∀ (nnn : Addr) (x : Nibble) (s : State),
    (∃ t, exec (.ldI nnn) s = .next t ∧ t = { s with i := t.i } ∧ t.i.toNat = nnn.toNat) ∧
    (∃ t, exec (.addI x) s = .next t ∧ t = { s with i := t.i } ∧ t.i.toNat = (s.i.toNat + (s.getV x).toNat) % 0x10000) ∧
    (∃ t, exec (.ldF x) s = .next t ∧ t = { s with i := t.i } ∧
      t.i.toNat = (s.params.fontBase + s.params.glyphSize * (s.getV x).toNat) % 0x10000)

/-- R133: `LD B` stores the hundreds, tens and ones of V[x] at I, I + 1 and I + 2, or, if they leave memory, raises OutOfRangeAccess and
stores nothing. -/
def Obligations.LdBStoresDecimalDigits : Prop :=
  ∀ (x : Nibble) (s : State),
    (s.i.toNat + 2 > 0xFFF → exec (.ldB x) s =
      .next { s with run := .halted, fault := some (.outOfRangeAccess (max s.i.toNat 0x1000) .write) }) ∧
    (s.i.toNat + 2 ≤ 0xFFF → s.mem.wf → ∃ t, exec (.ldB x) s = .next t ∧ t = { s with mem := t.mem } ∧
      (readByte t.mem s.i.toNat).toNat = (s.getV x).toNat / 100 ∧
      (readByte t.mem (s.i.toNat + 1)).toNat = (s.getV x).toNat / 10 % 10 ∧
      (readByte t.mem (s.i.toNat + 2)).toNat = (s.getV x).toNat % 10 ∧
      (∀ a, ¬Within a (s.i.toNat, 3) → readByte t.mem a = readByte s.mem a))

/-- R140: `LD [I], Vx` stores V0 to Vx at I, one byte each, or, if they leave memory, raises OutOfRangeAccess and stores nothing; I advances
by x + 1 under LOADSTORE_INCREMENTS_I alone. -/
def Obligations.LdMemStoresRegisterArray : Prop :=
  ∀ (x : Nibble) (s : State),
    (s.i.toNat + x.toNat > 0xFFF → exec (.ldMemVx x) s =
      .next { s with run := .halted, fault := some (.outOfRangeAccess (max s.i.toNat 0x1000) .write) }) ∧
    (s.i.toNat + x.toNat ≤ 0xFFF → s.mem.wf → ∃ t, exec (.ldMemVx x) s = .next t ∧ t = { s with mem := t.mem, i := t.i } ∧
      t.i.toNat = (if s.params.loadStoreIncrementsI = true then (s.i.toNat + x.toNat + 1) % 0x10000 else s.i.toNat) ∧
      (∀ r : Nibble, r.toNat ≤ x.toNat → readByte t.mem (s.i.toNat + r.toNat) = s.getV r) ∧
      (∀ a, ¬Within a (s.i.toNat, x.toNat + 1) → readByte t.mem a = readByte s.mem a))

/-- R142: `LD Vx, [I]` loads V0 to Vx from I, one byte each, and keeps the registers above, or, if the bytes leave memory, raises
OutOfRangeAccess and writes no register; I advances by x + 1 under LOADSTORE_INCREMENTS_I alone. -/
def Obligations.LdFromMemLoadsRegisterArray : Prop :=
  ∀ (x : Nibble) (s : State),
    (s.i.toNat + x.toNat > 0xFFF → exec (.ldVxMem x) s =
      .next { s with run := .halted, fault := some (.outOfRangeAccess (max s.i.toNat 0x1000) .read) }) ∧
    (s.i.toNat + x.toNat ≤ 0xFFF → ∃ t, exec (.ldVxMem x) s = .next t ∧ t = { s with v := t.v, i := t.i } ∧
      t.i.toNat = (if s.params.loadStoreIncrementsI = true then (s.i.toNat + x.toNat + 1) % 0x10000 else s.i.toNat) ∧
      ∀ r, t.getV r = if r.toNat ≤ x.toNat then readByte s.mem (s.i.toNat + r.toNat) else s.getV r)

/-! ### Display (spec/43_display.md) -/

/-- R151: `CLS` turns every pixel off and sets DIRTY, and changes nothing else. -/
def Obligations.ClsClearsAndSignals : Prop :=
  ∀ s : State, ∃ t, exec .cls s = .next t ∧ t = { s with fb := t.fb, dirty := true } ∧ ∀ x y, pixel t.fb x y = false

/-- R150, R152: DrawPixel XORs one pixel, its coordinates wrapped, leaves every other, and returns old and not new. -/
def Obligations.DrawPixelXorsOnePixel : Prop :=
  ∀ (fb : Framebuffer) (px py : Nat) (b : Bool),
    (∀ X Y, pixel (drawPixel fb px py b).1 X Y =
      if X % 64 = px % 64 ∧ Y % 32 = py % 32 then (pixel fb X Y ^^ b) else pixel fb X Y) ∧
    (drawPixel fb px py b).2 = (pixel fb px py && !pixel (drawPixel fb px py b).1 px py)

/-- R153: a sprite of at most 15 rows XORs each pixel with the one sprite bit that falls on it, both axes wrapping, and its collision is
whether some pixel went from on to off: the two loops in closed form. It rests on R153's inference, marked there as derived, that no two
sprite bits of one draw land on the same pixel. -/
def Obligations.DrawSpriteXorsItsBitsAndOrsCollisions : Prop :=
  ∀ (fb : Framebuffer) (rows : List Byte) (px py : Nat), rows.length ≤ 15 →
    (∀ X Y, X < 64 → Y < 32 →
      pixel (drawSprite fb rows px py).1 X Y = (pixel fb X Y ^^ spriteBitAt rows px py X Y)) ∧
    ((drawSprite fb rows px py).2 = true ↔
      ∃ X Y, X < 64 ∧ Y < 32 ∧ pixel fb X Y = true ∧ pixel (drawSprite fb rows px py).1 X Y = false)

/-- R156 (its pseudocode), R155: `DRW` reads n bytes at I as one checked block, draws them at (V[x], V[y]), sets DIRTY exactly if some pixel
changed, and writes the collision to VF last; if the block leaves memory it raises OutOfRangeAccess and nothing is drawn. -/
def Obligations.DrwDrawsAndSetsVf : Prop :=
  ∀ (x y n : Nibble) (s : State),
    (n.toNat > 0 → s.i.toNat + n.toNat - 1 > 0xFFF → exec (.drw x y n) s =
      .next { s with run := .halted, fault := some (.outOfRangeAccess (max s.i.toNat 0x1000) .read) }) ∧
    (n.toNat = 0 ∨ s.i.toNat + n.toNat - 1 ≤ 0xFFF → ∃ (t : State) (rows : List Byte), exec (.drw x y n) s = .next t ∧
      rows.length = n.toNat ∧ (∀ k < n.toNat, rows[k]? = some (readByte s.mem (s.i.toNat + k))) ∧
      t = { s with v := t.v, fb := t.fb, dirty := t.dirty } ∧
      t.fb = (drawSprite s.fb rows (s.getV x).toNat (s.getV y).toNat).1 ∧
      (t.dirty = true ↔ s.dirty = true ∨ ∃ X Y, pixel t.fb X Y ≠ pixel s.fb X Y) ∧
      ∀ r, (t.getV r).toNat = if r = 15
        then (if (drawSprite s.fb rows (s.getV x).toNat (s.getV y).toNat).2 = true then 1 else 0) else (s.getV r).toNat)

/-- R156, R25: a `DRW` that draws sets DIRTY exactly if some sprite byte has a 1 bit, however the screen stood. -/
def Obligations.DrwSignalsExactlyIfSpriteHasABit : Prop :=
  ∀ (x y n : Nibble) (s : State), s.dirty = false → (n.toNat = 0 ∨ s.i.toNat + n.toNat - 1 ≤ 0xFFF) →
    ∃ t, exec (.drw x y n) s = .next t ∧ (t.dirty = true ↔ ∃ k < n.toNat, readByte s.mem (s.i.toNat + k) ≠ 0)

/-- XOR idempotence (D0's property E5; R156 corner case (f)): the same `DRW` a second time restores the framebuffer. Neither coordinate
register is VF, which the first draw writes. -/
def Obligations.DrawingTwiceRestoresTheScreen : Prop :=
  ∀ (x y n : Nibble) (s : State), x ≠ 15 → y ≠ 15 → (n.toNat = 0 ∨ s.i.toNat + n.toNat - 1 ≤ 0xFFF) →
    ∃ t u, exec (.drw x y n) s = .next t ∧ exec (.drw x y n) t = .next u ∧ u.fb = s.fb

/-- R156 corner case (f), last clause, AS WRITTEN: "the second `DRW` sets VF = 1 if the sprite has any 1 bit", whatever the screen held before.
It does not follow from R152 and R156's pseudocode: a pixel that was on is turned off by the first draw and on again by the second,
with no collision (log 17). -/
def Obligations.SecondDrawAlwaysCollides : Prop :=
  ∀ (x y n : Nibble) (s t : State), x ≠ 15 → y ≠ 15 → n.toNat > 0 → s.i.toNat + n.toNat - 1 ≤ 0xFFF →
    (∃ k < n.toNat, readByte s.mem (s.i.toNat + k) ≠ 0) → exec (.drw x y n) s = .next t →
    ∃ u, exec (.drw x y n) t = .next u ∧ u.getV 15 = 1

/-! ### Timer registers and keys (spec/44_timer_key.md) -/

/-- R172 to R174: `LD Vx, DT`, `LD DT, Vx` and `LD ST, Vx` copy one register and change nothing else, TONE and ACC included. -/
def Obligations.TimerRegistersAreCopied : Prop :=
  ∀ (x : Nibble) (s : State),
    (∃ t, exec (.ldVxDt x) s = .next t ∧ t = { s with v := t.v } ∧ ∀ r, t.getV r = if r = x then s.dt else s.getV r) ∧
    exec (.ldDtVx x) s = .next { s with dt := s.getV x } ∧
    exec (.ldStVx x) s = .next { s with st := s.getV x }

/-- R170, R171: `SKP` skips exactly if key V[x] is down as sampled now, `SKNP` exactly if it is not; for V[x] above 15 the answer is
KEY_OOR_DOWN. The sample is free and the next one is another (log 4). -/
def Obligations.KeySkipsSampleTheKey : Prop :=
  ∀ (x : Nibble) (s : State) (down : Bool),
    down = (if (s.getV x).toNat ≤ 15 then Config.keyDown s.draws (BitVec.ofNat 4 (s.getV x).toNat) else s.params.keyOorDown) →
    exec (.skp x) s = .next { s with pc := (if down = true then s.pc + 2 else s.pc), draws := s.draws + 1 } ∧
    exec (.sknp x) s = .next { s with pc := (if down = true then s.pc else s.pc + 2), draws := s.draws + 1 }

/-! ### The host's ports (spec/10_state.md R29, spec/70_reset_and_hazards.md R236) -/

/-- R11, R12: the register port masks to 8 bits on write, reads back what was written, and fails with InvalidRegister outside 0 to 15. -/
def Obligations.RegisterPortMasksAndChecks : Prop :=
  ∀ (k value : Nat) (s : State),
    (k < 16 → ∃ t, setVPort k value s = .ok t ∧ ∃ b, getVPort k t = .ok b ∧ b.toNat = value % 256) ∧
    (k > 15 → setVPort k value s = .error (.invalidRegister k) ∧ getVPort k s = .error (.invalidRegister k))

/-- The load port masks every value to 8 bits and stores it, or fails with OutOfRangeAccess, writing nothing (R29, R42). -/
def Obligations.LoadPortMasksAndChecks : Prop :=
  ∀ (values : List Nat) (addr : Nat) (s : State), s.mem.wf →
    (values.length > 0 → addr + values.length - 1 > 0xFFF →
      load values addr s = .error (.outOfRangeAccess (max addr 0x1000) .write)) ∧
    (values.length = 0 ∨ addr + values.length - 1 ≤ 0xFFF → ∃ t, load values addr s = .ok t ∧ t = { s with mem := t.mem } ∧
      (∀ k v, values[k]? = some v → (readByte t.mem (addr + k)).toNat = v % 256) ∧
      (∀ a, ¬Within a (addr, values.length) → readByte t.mem a = readByte s.mem a))

/-- Boot from reset with the conventional parameters puts the font at 0x000, the program at 0x200, PC at 0x200, and leaves every other byte
0x00 and every other field as reset leaves it, for every program that fits (R236, R239). -/
def Obligations.BootPlacesFontAndProgram : Prop :=
  ∀ program : List Nat, program.length ≤ 0xE00 → ∃ t, boot program State.reset = .ok t ∧
    t = { State.reset with mem := t.mem, pc := 0x200 } ∧
    ∀ a, (readByte t.mem a).toNat =
      if a < 80 then font[a]?.getD 0 % 256
      else if 0x200 ≤ a then program[a - 0x200]?.getD 0 % 256 else 0
end

