-- ==== Sys2Proof/Laws/Encoding.lean ====
section
/-! SUPPORT. What the field extractions give on the words of each format, and when a table row hits such a word. -/

namespace Sys2Proof

/-! ### The bits of a word of each format (R61) -/

theorem bit_formatA (op : Nibble) (nnn : Addr) (k : Nat) :
    (formatA op nnn).getLsbD k = if k < 12 then nnn.getLsbD k else op.getLsbD (k - 12) :=
  BitVec.getLsbD_append

theorem bit_formatXK (op x : Nibble) (kk : Byte) (k : Nat) :
    (formatXK op x kk).getLsbD k =
      if k < 8 then kk.getLsbD k else if k - 8 < 4 then x.getLsbD (k - 8) else op.getLsbD (k - 8 - 4) := by
  show BitVec.getLsbD (w := 4 + 4 + 8) (op ++ x ++ kk) k = _
  simp only [BitVec.getLsbD_append]

theorem bit_formatXY (op x y low : Nibble) (k : Nat) :
    (formatXY op x y low).getLsbD k =
      if k < 4 then low.getLsbD k else if k - 4 < 4 then y.getLsbD (k - 4)
      else if k - 4 - 4 < 4 then x.getLsbD (k - 4 - 4) else op.getLsbD (k - 4 - 4 - 4) := by
  show BitVec.getLsbD (w := 4 + 4 + 4 + 4) (op ++ x ++ y ++ low) k = _
  simp only [BitVec.getLsbD_append]

theorem bit_word (hi lo : Byte) (k : Nat) :
    BitVec.getLsbD (w := 16) (hi ++ lo) k = if k < 8 then lo.getLsbD k else hi.getLsbD (k - 8) :=
  BitVec.getLsbD_append

/-- A word is its bytes, the high one first (R43). -/
@[simp] theorem highByte_append_lowByte (w : Word) : (highByte w ++ lowByte w : Word) = w := by
  apply BitVec.eq_of_getLsbD_eq
  intro k hk
  rw [bit_word]
  by_cases h : k < 8
  · simp [lowByte, h]
  · have h8 : k - 8 < 8 := by omega
    have hk' : 8 + (k - 8) = k := by omega
    simp [highByte, h, h8, hk']

@[simp] theorem highByte_append (hi lo : Byte) : highByte (hi ++ lo) = hi := by
  apply BitVec.eq_of_getLsbD_eq
  intro k hk
  rw [highByte, BitVec.getLsbD_extractLsb', bit_word]
  simp [hk]

@[simp] theorem lowByte_append (hi lo : Byte) : lowByte (hi ++ lo) = lo := by
  apply BitVec.eq_of_getLsbD_eq
  intro k hk
  rw [lowByte, BitVec.getLsbD_extractLsb', bit_word]
  simp [hk]

/-! ### The fields of a word of each format (R62) -/

@[simp] theorem nnnOf_formatA (op : Nibble) (nnn : Addr) : nnnOf (formatA op nnn) = nnn := by
  apply BitVec.eq_of_getLsbD_eq
  intro k hk
  rw [nnnOf, BitVec.getLsbD_extractLsb', bit_formatA]
  simp [hk]

@[simp] theorem xOf_formatXK (op x : Nibble) (kk : Byte) : xOf (formatXK op x kk) = x := by
  apply BitVec.eq_of_getLsbD_eq
  intro k hk
  rw [xOf, BitVec.getLsbD_extractLsb', bit_formatXK]
  simp [hk]

@[simp] theorem kkOf_formatXK (op x : Nibble) (kk : Byte) : kkOf (formatXK op x kk) = kk := by
  apply BitVec.eq_of_getLsbD_eq
  intro k hk
  rw [kkOf, BitVec.getLsbD_extractLsb', bit_formatXK]
  simp [hk]

@[simp] theorem xOf_formatX (op x : Nibble) (low : Byte) : xOf (formatX op x low) = x := xOf_formatXK op x low

@[simp] theorem xOf_formatXY (op x y low : Nibble) : xOf (formatXY op x y low) = x := by
  apply BitVec.eq_of_getLsbD_eq
  intro k hk
  rw [xOf, BitVec.getLsbD_extractLsb', bit_formatXY]
  have h1 : ¬ 8 + k < 4 := by omega
  have h2 : ¬ 8 + k - 4 < 4 := by omega
  have h3 : 8 + k - 4 - 4 = k := by omega
  simp [hk, h1, h2, h3]

@[simp] theorem yOf_formatXY (op x y low : Nibble) : yOf (formatXY op x y low) = y := by
  apply BitVec.eq_of_getLsbD_eq
  intro k hk
  rw [yOf, BitVec.getLsbD_extractLsb', bit_formatXY]
  simp [hk]

@[simp] theorem nOf_formatXY (op x y low : Nibble) : nOf (formatXY op x y low) = low := by
  apply BitVec.eq_of_getLsbD_eq
  intro k hk
  rw [nOf, BitVec.getLsbD_extractLsb', bit_formatXY]
  simp [hk]

/-! ### When a row hits a word: nibble by nibble -/

/-- Two concatenations of the same shape are equal exactly when their parts are. -/
theorem append_eq_append_iff {m n : Nat} (a c : BitVec m) (b d : BitVec n) : a ++ b = c ++ d ↔ a = c ∧ b = d := by
  constructor
  · intro h
    constructor
    · apply BitVec.eq_of_getLsbD_eq
      intro k hk
      have := congrArg (fun z => z.getLsbD (n + k)) h
      simpa only [BitVec.getLsbD_append, Nat.not_lt.mpr (Nat.le_add_right n k), if_false, Nat.add_sub_cancel_left] using this
    · apply BitVec.eq_of_getLsbD_eq
      intro k hk
      have := congrArg (fun z => z.getLsbD k) h
      simpa only [BitVec.getLsbD_append, hk, if_true] using this
  · rintro ⟨rfl, rfl⟩
    rfl

/-- A row whose mask and match are given nibble by nibble hits a word given so exactly where each nibble does. -/
theorem hits_formatXY (m₃ m₂ m₁ m₀ p₃ p₂ p₁ p₀ w₃ w₂ w₁ w₀ : Nibble) (f : Word → Instr) :
    OpcodeRow.hits ⟨formatXY m₃ m₂ m₁ m₀, formatXY p₃ p₂ p₁ p₀, f⟩ (formatXY w₃ w₂ w₁ w₀) =
      (m₃ &&& w₃ == p₃ && m₂ &&& w₂ == p₂ && m₁ &&& w₁ == p₁ && m₀ &&& w₀ == p₀) := by
  rw [Bool.eq_iff_iff]
  simp only [OpcodeRow.hits, beq_iff_eq, Bool.and_eq_true]
  show ((m₃ ++ m₂ ++ m₁ ++ m₀ : BitVec (4 + 4 + 4 + 4)) &&& (w₃ ++ w₂ ++ w₁ ++ w₀)) = p₃ ++ p₂ ++ p₁ ++ p₀ ↔ _
  rw [BitVec.and_append, BitVec.and_append, BitVec.and_append, append_eq_append_iff, append_eq_append_iff,
    append_eq_append_iff]

/-- Every word is its four nibbles (R61). -/
theorem word_eq_nibbles (w : Word) : w = formatXY (w.extractLsb' 12 4) (xOf w) (yOf w) (nOf w) := by
  apply BitVec.eq_of_getLsbD_eq
  intro k hk
  rw [bit_formatXY]
  simp only [xOf, yOf, nOf, BitVec.getLsbD_extractLsb']
  split
  · simp [*]
  · split
    · have : 4 + (k - 4) = k := by omega
      simp [*]
    · split
      · have : 8 + (k - 4 - 4) = k := by omega
        simp [*]
      · have h : 12 + (k - 4 - 4 - 4) = k := by omega
        have h' : k - 4 - 4 - 4 < 4 := by omega
        simp [h, h']

/-- A word of format XK, nibble by nibble. -/
theorem formatXK_eq_nibbles (op x : Nibble) (kk : Byte) :
    formatXK op x kk = formatXY op x (kk.extractLsb' 4 4) (kk.extractLsb' 0 4) := by
  apply BitVec.eq_of_getLsbD_eq
  intro k hk
  rw [bit_formatXK, bit_formatXY]
  simp only [BitVec.getLsbD_extractLsb']
  by_cases h4 : k < 4
  · have h8 : k < 8 := by omega
    simp [h4, h8]
  · by_cases h8 : k < 8
    · have h : k - 4 < 4 := by omega
      have h' : 4 + (k - 4) = k := by omega
      simp [h4, h8, h, h']
    · have h : ¬k - 4 < 4 := by omega
      have h' : k - 4 - 4 = k - 8 := by omega
      simp only [h4, h8, h, h', if_false]

/-- A word of format A, nibble by nibble. -/
theorem formatA_eq_nibbles (op : Nibble) (nnn : Addr) :
    formatA op nnn = formatXY op (nnn.extractLsb' 8 4) (nnn.extractLsb' 4 4) (nnn.extractLsb' 0 4) := by
  apply BitVec.eq_of_getLsbD_eq
  intro k hk
  rw [bit_formatA, bit_formatXY]
  simp only [BitVec.getLsbD_extractLsb']
  by_cases h4 : k < 4
  · have h12 : k < 12 := by omega
    simp [h4, h12]
  · by_cases h8 : k < 8
    · have h12 : k < 12 := by omega
      have h : k - 4 < 4 := by omega
      have h' : 4 + (k - 4) = k := by omega
      simp [h4, h12, h, h']
    · have h : ¬k - 4 < 4 := by omega
      by_cases h12 : k < 12
      · have h'' : k - 4 - 4 < 4 := by omega
        have h' : 8 + (k - 4 - 4) = k := by omega
        simp [h4, h12, h, h', h'']
      · have h'' : ¬k - 4 - 4 < 4 := by omega
        have h' : k - 4 - 4 - 4 = k - 12 := by omega
        simp only [h4, h12, h, h', h'', if_false]

/-- A word of format X is one of format XK. -/
theorem formatX_eq_formatXK (op x : Nibble) (low : Byte) : formatX op x low = formatXK op x low := rfl

end Sys2Proof
end

