-- ==== Sys2Proof/Laws/Memory.lean ====
section
/-! SUPPORT. Memory: what a read gives after a write, that every operation keeps the canonical form, and what the checked accesses answer. -/

namespace Sys2Proof.Machine

/-- The part of the canonical form that says where an address may stand: every listed address is at least `lo`. -/
theorem readByte_below {m : Memory} {a : Nat} (h : ∀ c ∈ m, a < c.1) : readByte m a = unlistedByte := by
  induction m with
  | nil => rfl
  | cons c m ih =>
    obtain ⟨k, b⟩ := c
    have hk : a < k := h (k, b) (by simp)
    rw [readByte, if_neg (by omega)]
    exact ih fun d hd => h d (by simp [hd])

/-- Every entry of `writeByte m a b` is the written one or one of `m`. -/
theorem mem_writeByte {m : Memory} {a : Nat} {b : Byte} {c : Host.Cell} (h : c ∈ writeByte m a b) :
    (c = (a, b) ∧ b ≠ unlistedByte) ∨ c ∈ m := by
  induction m with
  | nil =>
    rw [writeByte] at h
    split at h <;> simp_all
  | cons d m ih =>
    obtain ⟨k, e⟩ := d
    rw [writeByte] at h
    split at h
    · split at h <;> simp_all
    · split at h
      · split at h
        · exact .inr (by simp [h])
        · simp_all
          tauto
      · simp only [List.mem_cons] at h ⊢
        rcases h with h | h
        · exact .inr (.inl h)
        · rcases ih h with h | h
          · exact .inl h
          · exact .inr (.inr h)

/-- `writeByte` keeps the canonical form, inside memory. -/
theorem writeByte_wf {m : Memory} {a : Nat} {b : Byte} (hm : m.wf) (ha : a ≤ 0xFFF) : (writeByte m a b).wf := by
  refine ⟨?_, ?_⟩
  · induction m with
    | nil => rw [writeByte]; split <;> simp
    | cons d m ih =>
      obtain ⟨k, e⟩ := d
      obtain ⟨hs, he⟩ := hm
      have hs' := List.pairwise_cons.mp hs
      rw [writeByte]
      split
      · split
        · exact hs
        · refine List.pairwise_cons.mpr ⟨fun c hc => ?_, hs⟩
          rcases List.mem_cons.mp hc with rfl | hc
          · assumption
          · exact lt_trans (by assumption) (hs'.1 c hc)
      · split
        · rename_i hak
          subst hak
          split
          · exact hs'.2
          · exact List.pairwise_cons.mpr ⟨hs'.1, hs'.2⟩
        · refine List.pairwise_cons.mpr ⟨fun c hc => ?_, ih ⟨hs'.2, fun c hc => he c (by simp [hc])⟩⟩
          rcases mem_writeByte hc with ⟨rfl, _⟩ | hc
          · show k < a
            omega
          · exact hs'.1 c hc
  · intro c hc
    rcases mem_writeByte hc with ⟨rfl, hb⟩ | hc
    · exact ⟨ha, hb⟩
    · exact hm.2 c hc

/-- A read after a write: the byte written at its own address, and what stood there at every other. -/
theorem readByte_writeByte {m : Memory} (hm : m.wf) (a c : Nat) (b : Byte) :
    readByte (writeByte m a b) c = if c = a then b else readByte m c := by
  induction m with
  | nil =>
    by_cases hb : b = unlistedByte <;> by_cases hc : c = a <;> simp_all [readByte, writeByte, eq_comm]
  | cons d m ih =>
    obtain ⟨k, e⟩ := d
    obtain ⟨hs, he⟩ := hm
    have hs' := List.pairwise_cons.mp hs
    have hbelow : ∀ c ≤ k, c ≠ k → readByte ((k, e) :: m) c = unlistedByte := fun c hck hne =>
      readByte_below fun x hx => by
        rcases List.mem_cons.mp hx with rfl | hx
        · exact lt_of_le_of_ne hck hne
        · exact lt_of_le_of_lt hck (hs'.1 x hx)
    rw [writeByte]
    split
    · rename_i hak
      split
      · split
        · rename_i hb hc
          rw [hc, hb]
          exact hbelow a (by omega) (by omega)
        · rfl
      · rw [readByte]
        by_cases hc : c = a <;> simp [hc, eq_comm]
        intro h
        exact absurd h.symm hc
    · split
      · rename_i hak
        subst hak
        split
        · rename_i hb
          split
          · rename_i hc
            rw [hc, hb]
            exact readByte_below fun x hx => hs'.1 x hx
          · rename_i hc
            rw [readByte, if_neg (fun h => hc h.symm)]
        · rw [readByte, readByte]
          by_cases hc : c = a
          · simp [hc]
          · rw [if_neg (fun h => hc h.symm), if_neg hc, if_neg (fun h => hc h.symm)]
      · rw [readByte, readByte, ih ⟨hs'.2, fun c hc => he c (by simp [hc])⟩]
        by_cases hk : k = c
        · rw [if_pos hk, if_pos hk, if_neg (by omega)]
        · rw [if_neg hk, if_neg hk]

/-- `putBytes` keeps the canonical form, inside memory. -/
theorem putBytes_wf {m : Memory} {bs : List Byte} {addr : Nat} (hm : m.wf) (h : bs = [] ∨ addr + bs.length ≤ 0x1000) :
    (putBytes m addr bs).wf := by
  induction bs generalizing m addr with
  | nil => exact hm
  | cons b bs ih =>
    have h : addr + (bs.length + 1) ≤ 0x1000 := by simpa using h
    rw [putBytes]
    exact ih (writeByte_wf hm (by omega)) (.inr (by omega))

/-- What a read gives after a run of bytes was stored inside memory: the byte of the run, or what stood there. -/
theorem readByte_putBytes {m : Memory} {bs : List Byte} {addr : Nat} (hm : m.wf) (h : bs = [] ∨ addr + bs.length ≤ 0x1000)
    (c : Nat) :
    readByte (putBytes m addr bs) c =
      if h : addr ≤ c ∧ c - addr < bs.length then bs[c - addr]'h.2 else readByte m c := by
  induction bs generalizing m addr with
  | nil => simp [putBytes]
  | cons b bs ih =>
    have h : addr + (bs.length + 1) ≤ 0x1000 := by simpa using h
    rw [putBytes, ih (writeByte_wf hm (by omega)) (.inr (by omega)), readByte_writeByte hm]
    by_cases hc : c = addr
    · subst hc
      simp
    · by_cases h1 : addr + 1 ≤ c ∧ c - (addr + 1) < bs.length
      · have h2 : addr ≤ c ∧ c - addr < (b :: bs).length := by simp; omega
        rw [dif_pos h1, dif_pos h2, List.getElem_cons, dif_neg (by omega)]
        congr 1
      · have h2 : ¬(addr ≤ c ∧ c - addr < (b :: bs).length) := by simp; omega
        rw [dif_neg h1, dif_neg h2, if_neg hc]

/-- A checked access answers its value exactly when the range is legal. -/
theorem checked_ok {α : Type} {addr n : Nat} {op : Access} {a : α} (h : inRange addr n) : checked addr n op a = .ok a :=
  if_pos h

/-- A checked access outside memory is the fault with the lowest address above 0xFFF. -/
theorem checked_error {α : Type} {addr n : Nat} {op : Access} {a : α} (h : ¬inRange addr n) :
    checked addr n op a = .error (.outOfRangeAccess (max addr 0x1000) op) :=
  if_neg h

/-- All that a checked access can answer. -/
theorem checked_cases {α : Type} (addr n : Nat) (op : Access) (a : α) :
    (inRange addr n ∧ checked addr n op a = .ok a) ∨
    (¬inRange addr n ∧ checked addr n op a = .error (.outOfRangeAccess (max addr 0x1000) op)) := by
  by_cases h : inRange addr n
  · exact .inl ⟨h, checked_ok h⟩
  · exact .inr ⟨h, checked_error h⟩

@[simp] theorem bytesAt_length (m : Memory) (addr n : Nat) : (bytesAt m addr n).length = n := by
  induction n generalizing addr with
  | zero => rfl
  | succ n ih => simp [bytesAt, ih]

/-- The `k`-th byte of a run is the byte at `addr + k`. -/
theorem bytesAt_getElem? (m : Memory) (addr n k : Nat) (h : k < n) : (bytesAt m addr n)[k]? = some (readByte m (addr + k)) := by
  induction n generalizing addr k with
  | zero => omega
  | succ n ih =>
    cases k with
    | zero => simp [bytesAt]
    | succ k =>
      rw [bytesAt, List.getElem?_cons_succ, ih (addr + 1) k (by omega)]
      congr 2
      omega

/-- A block write inside memory keeps the canonical form. -/
theorem writeBlock_wf {m m' : Memory} {addr : Nat} {bs : List Byte} (hm : m.wf) (h : writeBlock m addr bs = .ok m') : m'.wf := by
  rcases checked_cases addr bs.length .write (putBytes m addr bs) with ⟨hr, he⟩ | ⟨_, he⟩
  · rw [writeBlock, he] at h
    cases h
    refine putBytes_wf hm ?_
    rcases hr with h0 | h1
    · exact .inl (List.eq_nil_of_length_eq_zero h0)
    · by_cases hb : bs.length = 0
      · exact .inl (List.eq_nil_of_length_eq_zero hb)
      · exact .inr (by omega)
  · rw [writeBlock, he] at h
    cases h

end Sys2Proof.Machine
end

