-- ==== Sys2Proof/Laws/State.lean ====
section
/-! SUPPORT. One lemma per field and update of `State`, each true by definition, so that no proof unfolds a record update. -/

namespace Sys2Proof.Machine

@[simp] theorem State.setV_v (s : State) (x : Nibble) (b : Byte) : (s.setV x b).v = s.v.set x.toNat b x.isLt := rfl
@[simp] theorem State.setV_i (s : State) (x : Nibble) (b : Byte) : (s.setV x b).i = s.i := rfl
@[simp] theorem State.setV_pc (s : State) (x : Nibble) (b : Byte) : (s.setV x b).pc = s.pc := rfl
@[simp] theorem State.setV_dt (s : State) (x : Nibble) (b : Byte) : (s.setV x b).dt = s.dt := rfl
@[simp] theorem State.setV_st (s : State) (x : Nibble) (b : Byte) : (s.setV x b).st = s.st := rfl
@[simp] theorem State.setV_sp (s : State) (x : Nibble) (b : Byte) : (s.setV x b).sp = s.sp := rfl
@[simp] theorem State.setV_mem (s : State) (x : Nibble) (b : Byte) : (s.setV x b).mem = s.mem := rfl
@[simp] theorem State.setV_fb (s : State) (x : Nibble) (b : Byte) : (s.setV x b).fb = s.fb := rfl
@[simp] theorem State.setV_acc (s : State) (x : Nibble) (b : Byte) : (s.setV x b).acc = s.acc := rfl
@[simp] theorem State.setV_tone (s : State) (x : Nibble) (b : Byte) : (s.setV x b).tone = s.tone := rfl
@[simp] theorem State.setV_run (s : State) (x : Nibble) (b : Byte) : (s.setV x b).run = s.run := rfl
@[simp] theorem State.setV_fault (s : State) (x : Nibble) (b : Byte) : (s.setV x b).fault = s.fault := rfl
@[simp] theorem State.setV_dirty (s : State) (x : Nibble) (b : Byte) : (s.setV x b).dirty = s.dirty := rfl
@[simp] theorem State.setV_elapsed (s : State) (x : Nibble) (b : Byte) : (s.setV x b).elapsed = s.elapsed := rfl
@[simp] theorem State.setV_draws (s : State) (x : Nibble) (b : Byte) : (s.setV x b).draws = s.draws := rfl
@[simp] theorem State.setV_params (s : State) (x : Nibble) (b : Byte) : (s.setV x b).params = s.params := rfl

@[simp] theorem State.setI_v (s : State) (w : Word) : (s.setI w).v = s.v := rfl
@[simp] theorem State.setI_i (s : State) (w : Word) : (s.setI w).i = w := rfl
@[simp] theorem State.setI_pc (s : State) (w : Word) : (s.setI w).pc = s.pc := rfl
@[simp] theorem State.setI_dt (s : State) (w : Word) : (s.setI w).dt = s.dt := rfl
@[simp] theorem State.setI_st (s : State) (w : Word) : (s.setI w).st = s.st := rfl
@[simp] theorem State.setI_sp (s : State) (w : Word) : (s.setI w).sp = s.sp := rfl
@[simp] theorem State.setI_mem (s : State) (w : Word) : (s.setI w).mem = s.mem := rfl
@[simp] theorem State.setI_fb (s : State) (w : Word) : (s.setI w).fb = s.fb := rfl
@[simp] theorem State.setI_acc (s : State) (w : Word) : (s.setI w).acc = s.acc := rfl
@[simp] theorem State.setI_tone (s : State) (w : Word) : (s.setI w).tone = s.tone := rfl
@[simp] theorem State.setI_run (s : State) (w : Word) : (s.setI w).run = s.run := rfl
@[simp] theorem State.setI_fault (s : State) (w : Word) : (s.setI w).fault = s.fault := rfl
@[simp] theorem State.setI_dirty (s : State) (w : Word) : (s.setI w).dirty = s.dirty := rfl
@[simp] theorem State.setI_elapsed (s : State) (w : Word) : (s.setI w).elapsed = s.elapsed := rfl
@[simp] theorem State.setI_draws (s : State) (w : Word) : (s.setI w).draws = s.draws := rfl
@[simp] theorem State.setI_params (s : State) (w : Word) : (s.setI w).params = s.params := rfl

@[simp] theorem State.setPc_v (s : State) (w : Word) : (s.setPc w).v = s.v := rfl
@[simp] theorem State.setPc_i (s : State) (w : Word) : (s.setPc w).i = s.i := rfl
@[simp] theorem State.setPc_pc (s : State) (w : Word) : (s.setPc w).pc = w := rfl
@[simp] theorem State.setPc_dt (s : State) (w : Word) : (s.setPc w).dt = s.dt := rfl
@[simp] theorem State.setPc_st (s : State) (w : Word) : (s.setPc w).st = s.st := rfl
@[simp] theorem State.setPc_sp (s : State) (w : Word) : (s.setPc w).sp = s.sp := rfl
@[simp] theorem State.setPc_mem (s : State) (w : Word) : (s.setPc w).mem = s.mem := rfl
@[simp] theorem State.setPc_fb (s : State) (w : Word) : (s.setPc w).fb = s.fb := rfl
@[simp] theorem State.setPc_acc (s : State) (w : Word) : (s.setPc w).acc = s.acc := rfl
@[simp] theorem State.setPc_tone (s : State) (w : Word) : (s.setPc w).tone = s.tone := rfl
@[simp] theorem State.setPc_run (s : State) (w : Word) : (s.setPc w).run = s.run := rfl
@[simp] theorem State.setPc_fault (s : State) (w : Word) : (s.setPc w).fault = s.fault := rfl
@[simp] theorem State.setPc_dirty (s : State) (w : Word) : (s.setPc w).dirty = s.dirty := rfl
@[simp] theorem State.setPc_elapsed (s : State) (w : Word) : (s.setPc w).elapsed = s.elapsed := rfl
@[simp] theorem State.setPc_draws (s : State) (w : Word) : (s.setPc w).draws = s.draws := rfl
@[simp] theorem State.setPc_params (s : State) (w : Word) : (s.setPc w).params = s.params := rfl

@[simp] theorem State.setDt_v (s : State) (b : Byte) : (s.setDt b).v = s.v := rfl
@[simp] theorem State.setDt_i (s : State) (b : Byte) : (s.setDt b).i = s.i := rfl
@[simp] theorem State.setDt_pc (s : State) (b : Byte) : (s.setDt b).pc = s.pc := rfl
@[simp] theorem State.setDt_dt (s : State) (b : Byte) : (s.setDt b).dt = b := rfl
@[simp] theorem State.setDt_st (s : State) (b : Byte) : (s.setDt b).st = s.st := rfl
@[simp] theorem State.setDt_sp (s : State) (b : Byte) : (s.setDt b).sp = s.sp := rfl
@[simp] theorem State.setDt_mem (s : State) (b : Byte) : (s.setDt b).mem = s.mem := rfl
@[simp] theorem State.setDt_fb (s : State) (b : Byte) : (s.setDt b).fb = s.fb := rfl
@[simp] theorem State.setDt_acc (s : State) (b : Byte) : (s.setDt b).acc = s.acc := rfl
@[simp] theorem State.setDt_tone (s : State) (b : Byte) : (s.setDt b).tone = s.tone := rfl
@[simp] theorem State.setDt_run (s : State) (b : Byte) : (s.setDt b).run = s.run := rfl
@[simp] theorem State.setDt_fault (s : State) (b : Byte) : (s.setDt b).fault = s.fault := rfl
@[simp] theorem State.setDt_dirty (s : State) (b : Byte) : (s.setDt b).dirty = s.dirty := rfl
@[simp] theorem State.setDt_elapsed (s : State) (b : Byte) : (s.setDt b).elapsed = s.elapsed := rfl
@[simp] theorem State.setDt_draws (s : State) (b : Byte) : (s.setDt b).draws = s.draws := rfl
@[simp] theorem State.setDt_params (s : State) (b : Byte) : (s.setDt b).params = s.params := rfl

@[simp] theorem State.setSt_v (s : State) (b : Byte) : (s.setSt b).v = s.v := rfl
@[simp] theorem State.setSt_i (s : State) (b : Byte) : (s.setSt b).i = s.i := rfl
@[simp] theorem State.setSt_pc (s : State) (b : Byte) : (s.setSt b).pc = s.pc := rfl
@[simp] theorem State.setSt_dt (s : State) (b : Byte) : (s.setSt b).dt = s.dt := rfl
@[simp] theorem State.setSt_st (s : State) (b : Byte) : (s.setSt b).st = b := rfl
@[simp] theorem State.setSt_sp (s : State) (b : Byte) : (s.setSt b).sp = s.sp := rfl
@[simp] theorem State.setSt_mem (s : State) (b : Byte) : (s.setSt b).mem = s.mem := rfl
@[simp] theorem State.setSt_fb (s : State) (b : Byte) : (s.setSt b).fb = s.fb := rfl
@[simp] theorem State.setSt_acc (s : State) (b : Byte) : (s.setSt b).acc = s.acc := rfl
@[simp] theorem State.setSt_tone (s : State) (b : Byte) : (s.setSt b).tone = s.tone := rfl
@[simp] theorem State.setSt_run (s : State) (b : Byte) : (s.setSt b).run = s.run := rfl
@[simp] theorem State.setSt_fault (s : State) (b : Byte) : (s.setSt b).fault = s.fault := rfl
@[simp] theorem State.setSt_dirty (s : State) (b : Byte) : (s.setSt b).dirty = s.dirty := rfl
@[simp] theorem State.setSt_elapsed (s : State) (b : Byte) : (s.setSt b).elapsed = s.elapsed := rfl
@[simp] theorem State.setSt_draws (s : State) (b : Byte) : (s.setSt b).draws = s.draws := rfl
@[simp] theorem State.setSt_params (s : State) (b : Byte) : (s.setSt b).params = s.params := rfl

@[simp] theorem State.setRun_v (s : State) (r : RunState) : (s.setRun r).v = s.v := rfl
@[simp] theorem State.setRun_i (s : State) (r : RunState) : (s.setRun r).i = s.i := rfl
@[simp] theorem State.setRun_pc (s : State) (r : RunState) : (s.setRun r).pc = s.pc := rfl
@[simp] theorem State.setRun_dt (s : State) (r : RunState) : (s.setRun r).dt = s.dt := rfl
@[simp] theorem State.setRun_st (s : State) (r : RunState) : (s.setRun r).st = s.st := rfl
@[simp] theorem State.setRun_sp (s : State) (r : RunState) : (s.setRun r).sp = s.sp := rfl
@[simp] theorem State.setRun_mem (s : State) (r : RunState) : (s.setRun r).mem = s.mem := rfl
@[simp] theorem State.setRun_fb (s : State) (r : RunState) : (s.setRun r).fb = s.fb := rfl
@[simp] theorem State.setRun_acc (s : State) (r : RunState) : (s.setRun r).acc = s.acc := rfl
@[simp] theorem State.setRun_tone (s : State) (r : RunState) : (s.setRun r).tone = s.tone := rfl
@[simp] theorem State.setRun_run (s : State) (r : RunState) : (s.setRun r).run = r := rfl
@[simp] theorem State.setRun_fault (s : State) (r : RunState) : (s.setRun r).fault = s.fault := rfl
@[simp] theorem State.setRun_dirty (s : State) (r : RunState) : (s.setRun r).dirty = s.dirty := rfl
@[simp] theorem State.setRun_elapsed (s : State) (r : RunState) : (s.setRun r).elapsed = s.elapsed := rfl
@[simp] theorem State.setRun_draws (s : State) (r : RunState) : (s.setRun r).draws = s.draws := rfl
@[simp] theorem State.setRun_params (s : State) (r : RunState) : (s.setRun r).params = s.params := rfl

@[simp] theorem State.setMem_v (s : State) (m : Memory) : (s.setMem m).v = s.v := rfl
@[simp] theorem State.setMem_i (s : State) (m : Memory) : (s.setMem m).i = s.i := rfl
@[simp] theorem State.setMem_pc (s : State) (m : Memory) : (s.setMem m).pc = s.pc := rfl
@[simp] theorem State.setMem_dt (s : State) (m : Memory) : (s.setMem m).dt = s.dt := rfl
@[simp] theorem State.setMem_st (s : State) (m : Memory) : (s.setMem m).st = s.st := rfl
@[simp] theorem State.setMem_sp (s : State) (m : Memory) : (s.setMem m).sp = s.sp := rfl
@[simp] theorem State.setMem_mem (s : State) (m : Memory) : (s.setMem m).mem = m := rfl
@[simp] theorem State.setMem_fb (s : State) (m : Memory) : (s.setMem m).fb = s.fb := rfl
@[simp] theorem State.setMem_acc (s : State) (m : Memory) : (s.setMem m).acc = s.acc := rfl
@[simp] theorem State.setMem_tone (s : State) (m : Memory) : (s.setMem m).tone = s.tone := rfl
@[simp] theorem State.setMem_run (s : State) (m : Memory) : (s.setMem m).run = s.run := rfl
@[simp] theorem State.setMem_fault (s : State) (m : Memory) : (s.setMem m).fault = s.fault := rfl
@[simp] theorem State.setMem_dirty (s : State) (m : Memory) : (s.setMem m).dirty = s.dirty := rfl
@[simp] theorem State.setMem_elapsed (s : State) (m : Memory) : (s.setMem m).elapsed = s.elapsed := rfl
@[simp] theorem State.setMem_draws (s : State) (m : Memory) : (s.setMem m).draws = s.draws := rfl
@[simp] theorem State.setMem_params (s : State) (m : Memory) : (s.setMem m).params = s.params := rfl

@[simp] theorem State.setStack_v (s : State) (m : Memory) (d : Nat) : (s.setStack m d).v = s.v := rfl
@[simp] theorem State.setStack_i (s : State) (m : Memory) (d : Nat) : (s.setStack m d).i = s.i := rfl
@[simp] theorem State.setStack_pc (s : State) (m : Memory) (d : Nat) : (s.setStack m d).pc = s.pc := rfl
@[simp] theorem State.setStack_dt (s : State) (m : Memory) (d : Nat) : (s.setStack m d).dt = s.dt := rfl
@[simp] theorem State.setStack_st (s : State) (m : Memory) (d : Nat) : (s.setStack m d).st = s.st := rfl
@[simp] theorem State.setStack_sp (s : State) (m : Memory) (d : Nat) : (s.setStack m d).sp = d := rfl
@[simp] theorem State.setStack_mem (s : State) (m : Memory) (d : Nat) : (s.setStack m d).mem = m := rfl
@[simp] theorem State.setStack_fb (s : State) (m : Memory) (d : Nat) : (s.setStack m d).fb = s.fb := rfl
@[simp] theorem State.setStack_acc (s : State) (m : Memory) (d : Nat) : (s.setStack m d).acc = s.acc := rfl
@[simp] theorem State.setStack_tone (s : State) (m : Memory) (d : Nat) : (s.setStack m d).tone = s.tone := rfl
@[simp] theorem State.setStack_run (s : State) (m : Memory) (d : Nat) : (s.setStack m d).run = s.run := rfl
@[simp] theorem State.setStack_fault (s : State) (m : Memory) (d : Nat) : (s.setStack m d).fault = s.fault := rfl
@[simp] theorem State.setStack_dirty (s : State) (m : Memory) (d : Nat) : (s.setStack m d).dirty = s.dirty := rfl
@[simp] theorem State.setStack_elapsed (s : State) (m : Memory) (d : Nat) : (s.setStack m d).elapsed = s.elapsed := rfl
@[simp] theorem State.setStack_draws (s : State) (m : Memory) (d : Nat) : (s.setStack m d).draws = s.draws := rfl
@[simp] theorem State.setStack_params (s : State) (m : Memory) (d : Nat) : (s.setStack m d).params = s.params := rfl

@[simp] theorem State.setFb_v (s : State) (f : Framebuffer) (b : Bool) : (s.setFb f b).v = s.v := rfl
@[simp] theorem State.setFb_i (s : State) (f : Framebuffer) (b : Bool) : (s.setFb f b).i = s.i := rfl
@[simp] theorem State.setFb_pc (s : State) (f : Framebuffer) (b : Bool) : (s.setFb f b).pc = s.pc := rfl
@[simp] theorem State.setFb_dt (s : State) (f : Framebuffer) (b : Bool) : (s.setFb f b).dt = s.dt := rfl
@[simp] theorem State.setFb_st (s : State) (f : Framebuffer) (b : Bool) : (s.setFb f b).st = s.st := rfl
@[simp] theorem State.setFb_sp (s : State) (f : Framebuffer) (b : Bool) : (s.setFb f b).sp = s.sp := rfl
@[simp] theorem State.setFb_mem (s : State) (f : Framebuffer) (b : Bool) : (s.setFb f b).mem = s.mem := rfl
@[simp] theorem State.setFb_fb (s : State) (f : Framebuffer) (b : Bool) : (s.setFb f b).fb = f := rfl
@[simp] theorem State.setFb_acc (s : State) (f : Framebuffer) (b : Bool) : (s.setFb f b).acc = s.acc := rfl
@[simp] theorem State.setFb_tone (s : State) (f : Framebuffer) (b : Bool) : (s.setFb f b).tone = s.tone := rfl
@[simp] theorem State.setFb_run (s : State) (f : Framebuffer) (b : Bool) : (s.setFb f b).run = s.run := rfl
@[simp] theorem State.setFb_fault (s : State) (f : Framebuffer) (b : Bool) : (s.setFb f b).fault = s.fault := rfl
@[simp] theorem State.setFb_dirty (s : State) (f : Framebuffer) (b : Bool) : (s.setFb f b).dirty = b := rfl
@[simp] theorem State.setFb_elapsed (s : State) (f : Framebuffer) (b : Bool) : (s.setFb f b).elapsed = s.elapsed := rfl
@[simp] theorem State.setFb_draws (s : State) (f : Framebuffer) (b : Bool) : (s.setFb f b).draws = s.draws := rfl
@[simp] theorem State.setFb_params (s : State) (f : Framebuffer) (b : Bool) : (s.setFb f b).params = s.params := rfl

@[simp] theorem State.nextDraw_v (s : State) : (s.nextDraw).v = s.v := rfl
@[simp] theorem State.nextDraw_i (s : State) : (s.nextDraw).i = s.i := rfl
@[simp] theorem State.nextDraw_pc (s : State) : (s.nextDraw).pc = s.pc := rfl
@[simp] theorem State.nextDraw_dt (s : State) : (s.nextDraw).dt = s.dt := rfl
@[simp] theorem State.nextDraw_st (s : State) : (s.nextDraw).st = s.st := rfl
@[simp] theorem State.nextDraw_sp (s : State) : (s.nextDraw).sp = s.sp := rfl
@[simp] theorem State.nextDraw_mem (s : State) : (s.nextDraw).mem = s.mem := rfl
@[simp] theorem State.nextDraw_fb (s : State) : (s.nextDraw).fb = s.fb := rfl
@[simp] theorem State.nextDraw_acc (s : State) : (s.nextDraw).acc = s.acc := rfl
@[simp] theorem State.nextDraw_tone (s : State) : (s.nextDraw).tone = s.tone := rfl
@[simp] theorem State.nextDraw_run (s : State) : (s.nextDraw).run = s.run := rfl
@[simp] theorem State.nextDraw_fault (s : State) : (s.nextDraw).fault = s.fault := rfl
@[simp] theorem State.nextDraw_dirty (s : State) : (s.nextDraw).dirty = s.dirty := rfl
@[simp] theorem State.nextDraw_elapsed (s : State) : (s.nextDraw).elapsed = s.elapsed := rfl
@[simp] theorem State.nextDraw_draws (s : State) : (s.nextDraw).draws = s.draws + 1 := rfl
@[simp] theorem State.nextDraw_params (s : State) : (s.nextDraw).params = s.params := rfl

@[simp] theorem State.advance_v (s : State) : (s.advance).v = s.v := rfl
@[simp] theorem State.advance_i (s : State) : (s.advance).i = s.i := rfl
@[simp] theorem State.advance_pc (s : State) : (s.advance).pc = s.pc + 2 := rfl
@[simp] theorem State.advance_dt (s : State) : (s.advance).dt = s.dt := rfl
@[simp] theorem State.advance_st (s : State) : (s.advance).st = s.st := rfl
@[simp] theorem State.advance_sp (s : State) : (s.advance).sp = s.sp := rfl
@[simp] theorem State.advance_mem (s : State) : (s.advance).mem = s.mem := rfl
@[simp] theorem State.advance_fb (s : State) : (s.advance).fb = s.fb := rfl
@[simp] theorem State.advance_acc (s : State) : (s.advance).acc = s.acc := rfl
@[simp] theorem State.advance_tone (s : State) : (s.advance).tone = s.tone := rfl
@[simp] theorem State.advance_run (s : State) : (s.advance).run = s.run := rfl
@[simp] theorem State.advance_fault (s : State) : (s.advance).fault = s.fault := rfl
@[simp] theorem State.advance_dirty (s : State) : (s.advance).dirty = s.dirty := rfl
@[simp] theorem State.advance_elapsed (s : State) : (s.advance).elapsed = s.elapsed := rfl
@[simp] theorem State.advance_draws (s : State) : (s.advance).draws = s.draws := rfl
@[simp] theorem State.advance_params (s : State) : (s.advance).params = s.params := rfl

@[simp] theorem raise_v (f : FaultRecord) (s : State) : (raise f s).v = s.v := rfl
@[simp] theorem raise_i (f : FaultRecord) (s : State) : (raise f s).i = s.i := rfl
@[simp] theorem raise_pc (f : FaultRecord) (s : State) : (raise f s).pc = s.pc := rfl
@[simp] theorem raise_dt (f : FaultRecord) (s : State) : (raise f s).dt = s.dt := rfl
@[simp] theorem raise_st (f : FaultRecord) (s : State) : (raise f s).st = s.st := rfl
@[simp] theorem raise_sp (f : FaultRecord) (s : State) : (raise f s).sp = s.sp := rfl
@[simp] theorem raise_mem (f : FaultRecord) (s : State) : (raise f s).mem = s.mem := rfl
@[simp] theorem raise_fb (f : FaultRecord) (s : State) : (raise f s).fb = s.fb := rfl
@[simp] theorem raise_acc (f : FaultRecord) (s : State) : (raise f s).acc = s.acc := rfl
@[simp] theorem raise_tone (f : FaultRecord) (s : State) : (raise f s).tone = s.tone := rfl
@[simp] theorem raise_run (f : FaultRecord) (s : State) : (raise f s).run = .halted := rfl
@[simp] theorem raise_fault (f : FaultRecord) (s : State) : (raise f s).fault = some f := rfl
@[simp] theorem raise_dirty (f : FaultRecord) (s : State) : (raise f s).dirty = s.dirty := rfl
@[simp] theorem raise_elapsed (f : FaultRecord) (s : State) : (raise f s).elapsed = s.elapsed := rfl
@[simp] theorem raise_draws (f : FaultRecord) (s : State) : (raise f s).draws = s.draws := rfl
@[simp] theorem raise_params (f : FaultRecord) (s : State) : (raise f s).params = s.params := rfl

@[simp] theorem timerTick_v (s : State) : (timerTick s).v = s.v := rfl
@[simp] theorem timerTick_i (s : State) : (timerTick s).i = s.i := rfl
@[simp] theorem timerTick_pc (s : State) : (timerTick s).pc = s.pc := rfl
@[simp] theorem timerTick_dt (s : State) : (timerTick s).dt = countDown s.dt := rfl
@[simp] theorem timerTick_st (s : State) : (timerTick s).st = countDown s.st := rfl
@[simp] theorem timerTick_sp (s : State) : (timerTick s).sp = s.sp := rfl
@[simp] theorem timerTick_mem (s : State) : (timerTick s).mem = s.mem := rfl
@[simp] theorem timerTick_fb (s : State) : (timerTick s).fb = s.fb := rfl
@[simp] theorem timerTick_acc (s : State) : (timerTick s).acc = s.acc := rfl
@[simp] theorem timerTick_tone (s : State) : (timerTick s).tone = toneGate (countDown s.st) s.tone := rfl
@[simp] theorem timerTick_run (s : State) : (timerTick s).run = s.run := rfl
@[simp] theorem timerTick_fault (s : State) : (timerTick s).fault = s.fault := rfl
@[simp] theorem timerTick_dirty (s : State) : (timerTick s).dirty = s.dirty := rfl
@[simp] theorem timerTick_elapsed (s : State) : (timerTick s).elapsed = s.elapsed := rfl
@[simp] theorem timerTick_draws (s : State) : (timerTick s).draws = s.draws := rfl
@[simp] theorem timerTick_params (s : State) : (timerTick s).params = s.params := rfl

end Sys2Proof.Machine
end

