-- ==== Sys2Proof/Laws/Registers.lean ====
section
/-! SUPPORT. Reading a general register after each update of the state (spec/10_state.md R10, R11), and runs of registers. -/

namespace Sys2Proof.Machine

/-- Reading `V[y]` after `V[x] <- b`. -/
@[simp] theorem getV_setV (s : State) (x y : Nibble) (b : Byte) : (s.setV x b).getV y = if y = x then b else s.getV y := by
  rw [State.getV, State.getV]
  simp only [State.setV_v, Vector.getElem_set, BitVec.toNat_inj, eq_comm]

/-- A register read depends on V alone. -/
theorem getV_congr {s t : State} (h : s.v = t.v) (x : Nibble) : s.getV x = t.getV x := by
  rw [State.getV, State.getV]
  congr 1

@[simp] theorem getV_setI (s : State) (w : Word) (x : Nibble) : (s.setI w).getV x = s.getV x := rfl
@[simp] theorem getV_setPc (s : State) (w : Word) (x : Nibble) : (s.setPc w).getV x = s.getV x := rfl
@[simp] theorem getV_setDt (s : State) (b : Byte) (x : Nibble) : (s.setDt b).getV x = s.getV x := rfl
@[simp] theorem getV_setSt (s : State) (b : Byte) (x : Nibble) : (s.setSt b).getV x = s.getV x := rfl
@[simp] theorem getV_setRun (s : State) (r : RunState) (x : Nibble) : (s.setRun r).getV x = s.getV x := rfl
@[simp] theorem getV_setMem (s : State) (m : Memory) (x : Nibble) : (s.setMem m).getV x = s.getV x := rfl
@[simp] theorem getV_setStack (s : State) (m : Memory) (d : Nat) (x : Nibble) : (s.setStack m d).getV x = s.getV x := rfl
@[simp] theorem getV_setFb (s : State) (f : Framebuffer) (b : Bool) (x : Nibble) : (s.setFb f b).getV x = s.getV x := rfl
@[simp] theorem getV_nextDraw (s : State) (x : Nibble) : s.nextDraw.getV x = s.getV x := rfl
@[simp] theorem getV_advance (s : State) (x : Nibble) : s.advance.getV x = s.getV x := rfl
@[simp] theorem getV_raise (f : FaultRecord) (s : State) (x : Nibble) : (raise f s).getV x = s.getV x := rfl

/-- Writing a run of registers changes V alone. -/
theorem putRegs_eq (s : State) (k : Nat) (bs : List Byte) : putRegs s k bs = { s with v := (putRegs s k bs).v } := by
  induction bs generalizing s k with
  | nil => rfl
  | cons b bs ih =>
    rw [putRegs, ih]
    rfl

/-- Reading `V[r]` after a run was written from `V[k]` on. -/
theorem getV_putRegs (s : State) (k : Nat) (bs : List Byte) (hk : k + bs.length ≤ 16) (r : Nibble) :
    (putRegs s k bs).getV r =
      if h : k ≤ r.toNat ∧ r.toNat - k < bs.length then bs[r.toNat - k]'h.2 else s.getV r := by
  induction bs generalizing s k with
  | nil => simp [putRegs]
  | cons b bs ih =>
    have hk : k + (bs.length + 1) ≤ 16 := hk
    rw [putRegs, ih _ _ (by omega), getV_setV]
    by_cases hr : r.toNat = k
    · have : r = BitVec.ofNat 4 k := by
        apply BitVec.eq_of_toNat_eq
        simp
        omega
      rw [dif_neg (by omega), if_pos this, dif_pos (by simp; omega)]
      simp [hr]
    · have : r ≠ BitVec.ofNat 4 k := by
        rintro rfl
        simp at hr
        omega
      rw [if_neg this]
      by_cases h : k + 1 ≤ r.toNat ∧ r.toNat - (k + 1) < bs.length
      · rw [dif_pos h, dif_pos (by simp; omega), List.getElem_cons, dif_neg (by omega)]
        congr 1
      · rw [dif_neg h, dif_neg (by simp; omega)]

@[simp] theorem firstRegs_length (s : State) (n : Nat) : (firstRegs s n).length = n := by simp [firstRegs]

end Sys2Proof.Machine
end

