-- ==== Sys2Proof/Laws/Ops.lean ====
section
/-! SUPPORT. For each shared operation one lemma that says everything it can answer. -/

namespace Sys2Proof.Machine

@[simp] theorem orRaise_ok (s t : State) : orRaise s (.ok t) = .next t := rfl
@[simp] theorem orRaise_error (s : State) (f : FaultRecord) : orRaise s (.error f) = .next (raise f s) := rfl

/-- All that a push can answer (R47). -/
theorem push_cases (a : Word) (s : State) :
    (s.sp = 16 ∧ push a s = .error .stackOverflow) ∨
    (s.sp ≠ 16 ∧ ¬inRange (stackEntry s s.sp) 2 ∧
      push a s = .error (.outOfRangeAccess (max (stackEntry s s.sp) 0x1000) .write)) ∨
    (s.sp ≠ 16 ∧ inRange (stackEntry s s.sp) 2 ∧
      push a s = .ok (s.setStack (putBytes s.mem (stackEntry s s.sp) [highByte a, lowByte a]) (s.sp + 1))) := by
  rw [push]
  by_cases h : s.sp = 16
  · exact .inl ⟨h, if_pos h⟩
  · refine .inr ?_
    rw [if_neg h, writeBlock]
    rcases checked_cases (stackEntry s s.sp) [highByte a, lowByte a].length .write
      (putBytes s.mem (stackEntry s s.sp) [highByte a, lowByte a]) with ⟨hr, he⟩ | ⟨hr, he⟩ <;> rw [he]
    · exact .inr ⟨h, hr, rfl⟩
    · exact .inl ⟨h, hr, rfl⟩

/-- All that a pop can answer (R48). -/
theorem pop_cases (s : State) :
    (s.sp = 0 ∧ pop s = .error .stackUnderflow) ∨
    (s.sp ≠ 0 ∧ ¬inRange (stackEntry s (s.sp - 1)) 2 ∧
      pop s = .error (.outOfRangeAccess (max (stackEntry s (s.sp - 1)) 0x1000) .read)) ∨
    (s.sp ≠ 0 ∧ inRange (stackEntry s (s.sp - 1)) 2 ∧
      pop s = .ok (readByte s.mem (stackEntry s (s.sp - 1)) ++ readByte s.mem (stackEntry s (s.sp - 1) + 1),
        s.setStack s.mem (s.sp - 1))) := by
  rw [pop]
  by_cases h : s.sp = 0
  · exact .inl ⟨h, if_pos h⟩
  · refine .inr ?_
    rw [if_neg h, readWord]
    rcases checked_cases (stackEntry s (s.sp - 1)) 2 .read
      (readByte s.mem (stackEntry s (s.sp - 1)) ++ readByte s.mem (stackEntry s (s.sp - 1) + 1)) with ⟨hr, he⟩ | ⟨hr, he⟩ <;> rw [he]
    · exact .inr ⟨h, hr, rfl⟩
    · exact .inl ⟨h, hr, rfl⟩

/-- All that a block read at I can answer (R41). -/
theorem readAtI_cases (n : Nat) (s : State) :
    (inRange s.i.toNat n ∧ readAtI n s = .ok (bytesAt s.mem s.i.toNat n)) ∨
    (¬inRange s.i.toNat n ∧ readAtI n s = .error (.outOfRangeAccess (max s.i.toNat 0x1000) .read)) :=
  checked_cases _ _ _ _

/-- All that a block write at I can answer (R42). -/
theorem writeAtI_cases (bs : List Byte) (s : State) :
    (inRange s.i.toNat bs.length ∧ writeAtI bs s = .ok (s.setMem (putBytes s.mem s.i.toNat bs))) ∨
    (¬inRange s.i.toNat bs.length ∧ writeAtI bs s = .error (.outOfRangeAccess (max s.i.toNat 0x1000) .write)) := by
  rw [writeAtI, writeBlock]
  rcases checked_cases s.i.toNat bs.length .write (putBytes s.mem s.i.toNat bs) with ⟨hr, he⟩ | ⟨hr, he⟩ <;> rw [he]
  · exact .inl ⟨hr, rfl⟩
  · exact .inr ⟨hr, rfl⟩

/-- A skip changes PC alone (R90). -/
theorem skipIf_eq (c : Bool) (s : State) : skipIf c s = s.setPc (if c then s.pc + 2 else s.pc) := by
  cases c <;> rfl

/-- The I increment changes I alone (R140, R142). -/
theorem incrementI_eq (x : Nibble) (s : State) :
    incrementI x s =
      s.setI (if s.params.loadStoreIncrementsI then BitVec.ofNat 16 (s.i.toNat + x.toNat + 1) else s.i) := by
  rw [incrementI]
  split <;> rfl

/-- A logic write changes V alone (R103 to R105). -/
theorem setLogic_eq (s : State) (x : Nibble) (b : Byte) : s.setLogic x b = { s with v := (s.setLogic x b).v } := by
  rw [State.setLogic]
  split <;> rfl

/-- Reading a register after a logic write. -/
theorem getV_setLogic (s : State) (x r : Nibble) (b : Byte) :
    (s.setLogic x b).getV r = if s.params.logicResetsVf = true ∧ r = 15 then 0 else if r = x then b else s.getV r := by
  rw [State.setLogic]
  split <;> simp_all

/-- Reading a register after a result and a flag were written: the flag is last (R116). -/
theorem getV_setResultFlag (s : State) (x r : Nibble) (result flag : Byte) :
    (s.setResultFlag x result flag).getV r = if r = 15 then flag else if r = x then result else s.getV r := by
  rw [State.setResultFlag, getV_setV, getV_setV]

/-! ### The compound updates, field by field -/

@[simp] theorem setLogic_i (s : State) (x : Nibble) (b : Byte) : (s.setLogic x b).i = s.i := by rw [State.setLogic]; split <;> rfl
@[simp] theorem setLogic_pc (s : State) (x : Nibble) (b : Byte) : (s.setLogic x b).pc = s.pc := by rw [State.setLogic]; split <;> rfl
@[simp] theorem setLogic_dt (s : State) (x : Nibble) (b : Byte) : (s.setLogic x b).dt = s.dt := by rw [State.setLogic]; split <;> rfl
@[simp] theorem setLogic_st (s : State) (x : Nibble) (b : Byte) : (s.setLogic x b).st = s.st := by rw [State.setLogic]; split <;> rfl
@[simp] theorem setLogic_sp (s : State) (x : Nibble) (b : Byte) : (s.setLogic x b).sp = s.sp := by rw [State.setLogic]; split <;> rfl
@[simp] theorem setLogic_mem (s : State) (x : Nibble) (b : Byte) : (s.setLogic x b).mem = s.mem := by rw [State.setLogic]; split <;> rfl
@[simp] theorem setLogic_fb (s : State) (x : Nibble) (b : Byte) : (s.setLogic x b).fb = s.fb := by rw [State.setLogic]; split <;> rfl
@[simp] theorem setLogic_acc (s : State) (x : Nibble) (b : Byte) : (s.setLogic x b).acc = s.acc := by rw [State.setLogic]; split <;> rfl
@[simp] theorem setLogic_tone (s : State) (x : Nibble) (b : Byte) : (s.setLogic x b).tone = s.tone := by rw [State.setLogic]; split <;> rfl
@[simp] theorem setLogic_run (s : State) (x : Nibble) (b : Byte) : (s.setLogic x b).run = s.run := by rw [State.setLogic]; split <;> rfl
@[simp] theorem setLogic_fault (s : State) (x : Nibble) (b : Byte) : (s.setLogic x b).fault = s.fault := by rw [State.setLogic]; split <;> rfl
@[simp] theorem setLogic_dirty (s : State) (x : Nibble) (b : Byte) : (s.setLogic x b).dirty = s.dirty := by rw [State.setLogic]; split <;> rfl
@[simp] theorem setLogic_elapsed (s : State) (x : Nibble) (b : Byte) : (s.setLogic x b).elapsed = s.elapsed := by rw [State.setLogic]; split <;> rfl
@[simp] theorem setLogic_draws (s : State) (x : Nibble) (b : Byte) : (s.setLogic x b).draws = s.draws := by rw [State.setLogic]; split <;> rfl
@[simp] theorem setLogic_params (s : State) (x : Nibble) (b : Byte) : (s.setLogic x b).params = s.params := by rw [State.setLogic]; split <;> rfl
@[simp] theorem setResultFlag_i (s : State) (x : Nibble) (a b : Byte) : (s.setResultFlag x a b).i = s.i := rfl
@[simp] theorem setResultFlag_pc (s : State) (x : Nibble) (a b : Byte) : (s.setResultFlag x a b).pc = s.pc := rfl
@[simp] theorem setResultFlag_dt (s : State) (x : Nibble) (a b : Byte) : (s.setResultFlag x a b).dt = s.dt := rfl
@[simp] theorem setResultFlag_st (s : State) (x : Nibble) (a b : Byte) : (s.setResultFlag x a b).st = s.st := rfl
@[simp] theorem setResultFlag_sp (s : State) (x : Nibble) (a b : Byte) : (s.setResultFlag x a b).sp = s.sp := rfl
@[simp] theorem setResultFlag_mem (s : State) (x : Nibble) (a b : Byte) : (s.setResultFlag x a b).mem = s.mem := rfl
@[simp] theorem setResultFlag_fb (s : State) (x : Nibble) (a b : Byte) : (s.setResultFlag x a b).fb = s.fb := rfl
@[simp] theorem setResultFlag_acc (s : State) (x : Nibble) (a b : Byte) : (s.setResultFlag x a b).acc = s.acc := rfl
@[simp] theorem setResultFlag_tone (s : State) (x : Nibble) (a b : Byte) : (s.setResultFlag x a b).tone = s.tone := rfl
@[simp] theorem setResultFlag_run (s : State) (x : Nibble) (a b : Byte) : (s.setResultFlag x a b).run = s.run := rfl
@[simp] theorem setResultFlag_fault (s : State) (x : Nibble) (a b : Byte) : (s.setResultFlag x a b).fault = s.fault := rfl
@[simp] theorem setResultFlag_dirty (s : State) (x : Nibble) (a b : Byte) : (s.setResultFlag x a b).dirty = s.dirty := rfl
@[simp] theorem setResultFlag_elapsed (s : State) (x : Nibble) (a b : Byte) : (s.setResultFlag x a b).elapsed = s.elapsed := rfl
@[simp] theorem setResultFlag_draws (s : State) (x : Nibble) (a b : Byte) : (s.setResultFlag x a b).draws = s.draws := rfl
@[simp] theorem setResultFlag_params (s : State) (x : Nibble) (a b : Byte) : (s.setResultFlag x a b).params = s.params := rfl
@[simp] theorem putRegs_i (s : State) (k : Nat) (bs : List Byte) : (putRegs s k bs).i = s.i := by rw [putRegs_eq]
@[simp] theorem putRegs_pc (s : State) (k : Nat) (bs : List Byte) : (putRegs s k bs).pc = s.pc := by rw [putRegs_eq]
@[simp] theorem putRegs_dt (s : State) (k : Nat) (bs : List Byte) : (putRegs s k bs).dt = s.dt := by rw [putRegs_eq]
@[simp] theorem putRegs_st (s : State) (k : Nat) (bs : List Byte) : (putRegs s k bs).st = s.st := by rw [putRegs_eq]
@[simp] theorem putRegs_sp (s : State) (k : Nat) (bs : List Byte) : (putRegs s k bs).sp = s.sp := by rw [putRegs_eq]
@[simp] theorem putRegs_mem (s : State) (k : Nat) (bs : List Byte) : (putRegs s k bs).mem = s.mem := by rw [putRegs_eq]
@[simp] theorem putRegs_fb (s : State) (k : Nat) (bs : List Byte) : (putRegs s k bs).fb = s.fb := by rw [putRegs_eq]
@[simp] theorem putRegs_acc (s : State) (k : Nat) (bs : List Byte) : (putRegs s k bs).acc = s.acc := by rw [putRegs_eq]
@[simp] theorem putRegs_tone (s : State) (k : Nat) (bs : List Byte) : (putRegs s k bs).tone = s.tone := by rw [putRegs_eq]
@[simp] theorem putRegs_run (s : State) (k : Nat) (bs : List Byte) : (putRegs s k bs).run = s.run := by rw [putRegs_eq]
@[simp] theorem putRegs_fault (s : State) (k : Nat) (bs : List Byte) : (putRegs s k bs).fault = s.fault := by rw [putRegs_eq]
@[simp] theorem putRegs_dirty (s : State) (k : Nat) (bs : List Byte) : (putRegs s k bs).dirty = s.dirty := by rw [putRegs_eq]
@[simp] theorem putRegs_elapsed (s : State) (k : Nat) (bs : List Byte) : (putRegs s k bs).elapsed = s.elapsed := by rw [putRegs_eq]
@[simp] theorem putRegs_draws (s : State) (k : Nat) (bs : List Byte) : (putRegs s k bs).draws = s.draws := by rw [putRegs_eq]
@[simp] theorem putRegs_params (s : State) (k : Nat) (bs : List Byte) : (putRegs s k bs).params = s.params := by rw [putRegs_eq]
@[simp] theorem skipIf_v (c : Bool) (s : State) : (skipIf c s).v = s.v := by cases c <;> rfl
@[simp] theorem skipIf_i (c : Bool) (s : State) : (skipIf c s).i = s.i := by cases c <;> rfl
@[simp] theorem skipIf_dt (c : Bool) (s : State) : (skipIf c s).dt = s.dt := by cases c <;> rfl
@[simp] theorem skipIf_st (c : Bool) (s : State) : (skipIf c s).st = s.st := by cases c <;> rfl
@[simp] theorem skipIf_sp (c : Bool) (s : State) : (skipIf c s).sp = s.sp := by cases c <;> rfl
@[simp] theorem skipIf_mem (c : Bool) (s : State) : (skipIf c s).mem = s.mem := by cases c <;> rfl
@[simp] theorem skipIf_fb (c : Bool) (s : State) : (skipIf c s).fb = s.fb := by cases c <;> rfl
@[simp] theorem skipIf_acc (c : Bool) (s : State) : (skipIf c s).acc = s.acc := by cases c <;> rfl
@[simp] theorem skipIf_tone (c : Bool) (s : State) : (skipIf c s).tone = s.tone := by cases c <;> rfl
@[simp] theorem skipIf_run (c : Bool) (s : State) : (skipIf c s).run = s.run := by cases c <;> rfl
@[simp] theorem skipIf_fault (c : Bool) (s : State) : (skipIf c s).fault = s.fault := by cases c <;> rfl
@[simp] theorem skipIf_dirty (c : Bool) (s : State) : (skipIf c s).dirty = s.dirty := by cases c <;> rfl
@[simp] theorem skipIf_elapsed (c : Bool) (s : State) : (skipIf c s).elapsed = s.elapsed := by cases c <;> rfl
@[simp] theorem skipIf_draws (c : Bool) (s : State) : (skipIf c s).draws = s.draws := by cases c <;> rfl
@[simp] theorem skipIf_params (c : Bool) (s : State) : (skipIf c s).params = s.params := by cases c <;> rfl
@[simp] theorem incrementI_v (x : Nibble) (s : State) : (incrementI x s).v = s.v := by rw [incrementI]; split <;> rfl
@[simp] theorem incrementI_pc (x : Nibble) (s : State) : (incrementI x s).pc = s.pc := by rw [incrementI]; split <;> rfl
@[simp] theorem incrementI_dt (x : Nibble) (s : State) : (incrementI x s).dt = s.dt := by rw [incrementI]; split <;> rfl
@[simp] theorem incrementI_st (x : Nibble) (s : State) : (incrementI x s).st = s.st := by rw [incrementI]; split <;> rfl
@[simp] theorem incrementI_sp (x : Nibble) (s : State) : (incrementI x s).sp = s.sp := by rw [incrementI]; split <;> rfl
@[simp] theorem incrementI_mem (x : Nibble) (s : State) : (incrementI x s).mem = s.mem := by rw [incrementI]; split <;> rfl
@[simp] theorem incrementI_fb (x : Nibble) (s : State) : (incrementI x s).fb = s.fb := by rw [incrementI]; split <;> rfl
@[simp] theorem incrementI_acc (x : Nibble) (s : State) : (incrementI x s).acc = s.acc := by rw [incrementI]; split <;> rfl
@[simp] theorem incrementI_tone (x : Nibble) (s : State) : (incrementI x s).tone = s.tone := by rw [incrementI]; split <;> rfl
@[simp] theorem incrementI_run (x : Nibble) (s : State) : (incrementI x s).run = s.run := by rw [incrementI]; split <;> rfl
@[simp] theorem incrementI_fault (x : Nibble) (s : State) : (incrementI x s).fault = s.fault := by rw [incrementI]; split <;> rfl
@[simp] theorem incrementI_dirty (x : Nibble) (s : State) : (incrementI x s).dirty = s.dirty := by rw [incrementI]; split <;> rfl
@[simp] theorem incrementI_elapsed (x : Nibble) (s : State) : (incrementI x s).elapsed = s.elapsed := by rw [incrementI]; split <;> rfl
@[simp] theorem incrementI_draws (x : Nibble) (s : State) : (incrementI x s).draws = s.draws := by rw [incrementI]; split <;> rfl
@[simp] theorem incrementI_params (x : Nibble) (s : State) : (incrementI x s).params = s.params := by rw [incrementI]; split <;> rfl

@[simp] theorem skipIf_pc (c : Bool) (s : State) : (skipIf c s).pc = if c then s.pc + 2 else s.pc := by cases c <;> rfl

@[simp] theorem incrementI_i (x : Nibble) (s : State) :
    (incrementI x s).i = if s.params.loadStoreIncrementsI then BitVec.ofNat 16 (s.i.toNat + x.toNat + 1) else s.i := by
  rw [incrementI]
  split <;> rfl

@[simp] theorem getV_incrementI (x r : Nibble) (s : State) : (incrementI x s).getV r = s.getV r :=
  getV_congr (incrementI_v x s) r

@[simp] theorem getV_skipIf (c : Bool) (s : State) (r : Nibble) : (skipIf c s).getV r = s.getV r :=
  getV_congr (skipIf_v c s) r

end Sys2Proof.Machine
end

