-- ==== Sys2Proof/Laws/Exec.lean ====
section
/-! SUPPORT. What `exec` answers for each instruction: one equation where it answers one way, one case list where it may raise a fault. -/

namespace Sys2Proof.Machine

/-! ### Instructions that raise no fault -/

theorem exec_cls (s : State) : exec .cls s = .next (s.setFb blankFb true) := rfl
theorem exec_jp (nnn : Addr) (s : State) : exec (.jp nnn) s = .next (s.setPc (addrOperand nnn)) := rfl
theorem exec_jpV0 (nnn : Addr) (s : State) : exec (.jpV0 nnn) s = .next (s.setPc (indexedTarget nnn s)) := rfl
theorem exec_seByte (x : Nibble) (kk : Byte) (s : State) : exec (.seByte x kk) s = .next (skipIf (s.getV x == kk) s) := rfl
theorem exec_sneByte (x : Nibble) (kk : Byte) (s : State) : exec (.sneByte x kk) s = .next (skipIf (s.getV x != kk) s) := rfl
theorem exec_seReg (x y : Nibble) (s : State) : exec (.seReg x y) s = .next (skipIf (s.getV x == s.getV y) s) := rfl
theorem exec_sneReg (x y : Nibble) (s : State) : exec (.sneReg x y) s = .next (skipIf (s.getV x != s.getV y) s) := rfl
theorem exec_ldByte (x : Nibble) (kk : Byte) (s : State) : exec (.ldByte x kk) s = .next (s.setV x kk) := rfl
theorem exec_addByte (x : Nibble) (kk : Byte) (s : State) : exec (.addByte x kk) s = .next (s.setV x (sumByte (s.getV x) kk)) := rfl
theorem exec_ldReg (x y : Nibble) (s : State) : exec (.ldReg x y) s = .next (s.setV x (s.getV y)) := rfl
theorem exec_orReg (x y : Nibble) (s : State) : exec (.orReg x y) s = .next (s.setLogic x (s.getV x ||| s.getV y)) := rfl
theorem exec_andReg (x y : Nibble) (s : State) : exec (.andReg x y) s = .next (s.setLogic x (s.getV x &&& s.getV y)) := rfl
theorem exec_xorReg (x y : Nibble) (s : State) : exec (.xorReg x y) s = .next (s.setLogic x (s.getV x ^^^ s.getV y)) := rfl
theorem exec_addReg (x y : Nibble) (s : State) : exec (.addReg x y) s =
    .next (s.setResultFlag x (sumByte (s.getV x) (s.getV y)) (carryFlag (s.getV x) (s.getV y))) := rfl
theorem exec_subReg (x y : Nibble) (s : State) : exec (.subReg x y) s =
    .next (s.setResultFlag x (diffByte (s.getV x) (s.getV y)) (noBorrowFlag (s.getV x) (s.getV y))) := rfl
theorem exec_subnReg (x y : Nibble) (s : State) : exec (.subnReg x y) s =
    .next (s.setResultFlag x (diffByte (s.getV y) (s.getV x)) (noBorrowFlag (s.getV y) (s.getV x))) := rfl
theorem exec_shr (x y : Nibble) (s : State) : exec (.shr x y) s =
    .next (s.setResultFlag x (shiftRightByte (s.getV x)) (bitZeroFlag (s.getV x))) := rfl
theorem exec_shl (x y : Nibble) (s : State) : exec (.shl x y) s =
    .next (s.setResultFlag x (shiftLeftByte (s.getV x)) (bitSevenFlag (s.getV x))) := rfl
theorem exec_rnd (x : Nibble) (kk : Byte) (s : State) : exec (.rnd x kk) s =
    .next (s.setV x (Config.draw8 s.draws &&& kk)).nextDraw := rfl
theorem exec_ldI (nnn : Addr) (s : State) : exec (.ldI nnn) s = .next (s.setI (addrOperand nnn)) := rfl
theorem exec_addI (x : Nibble) (s : State) : exec (.addI x) s = .next (s.setI (indexSum x s)) := rfl
theorem exec_ldF (x : Nibble) (s : State) : exec (.ldF x) s = .next (s.setI (glyphAddr x s)) := rfl
theorem exec_skp (x : Nibble) (s : State) : exec (.skp x) s = .next (skipIf (keyIsDown x s) s).nextDraw := rfl
theorem exec_sknp (x : Nibble) (s : State) : exec (.sknp x) s = .next (skipIf (!keyIsDown x s) s).nextDraw := rfl
theorem exec_ldVxDt (x : Nibble) (s : State) : exec (.ldVxDt x) s = .next (s.setV x s.dt) := rfl
theorem exec_ldVxK (x : Nibble) (s : State) : exec (.ldVxK x) s = .next (s.setRun (.waitKey x)) := rfl
theorem exec_ldDtVx (x : Nibble) (s : State) : exec (.ldDtVx x) s = .next (s.setDt (s.getV x)) := rfl
theorem exec_ldStVx (x : Nibble) (s : State) : exec (.ldStVx x) s = .next (s.setSt (s.getV x)) := rfl

/-! ### Instructions that may raise one -/

/-- All that `SYS` can answer (R81). -/
theorem exec_sys_cases (nnn : Addr) (s : State) :
    (s.params.sysFaults = true ∧ exec (.sys nnn) s = .next (raise (.unknownInstruction (encode (.sys nnn))) s)) ∨
    (s.params.sysFaults = false ∧ exec (.sys nnn) s = .next s) := by
  cases h : s.params.sysFaults
  · exact .inr ⟨rfl, by simp [exec, execSys, h]⟩
  · exact .inl ⟨rfl, by simp [exec, execSys, h]⟩

/-- All that `RET` can answer (R82). -/
theorem exec_ret_cases (s : State) :
    (s.sp = 0 ∧ exec .ret s = .next (raise .stackUnderflow s)) ∨
    (s.sp ≠ 0 ∧ ¬inRange (stackEntry s (s.sp - 1)) 2 ∧
      exec .ret s = .next (raise (.outOfRangeAccess (max (stackEntry s (s.sp - 1)) 0x1000) .read) s)) ∨
    (s.sp ≠ 0 ∧ inRange (stackEntry s (s.sp - 1)) 2 ∧
      exec .ret s = .next ((s.setStack s.mem (s.sp - 1)).setPc
        (readByte s.mem (stackEntry s (s.sp - 1)) ++ readByte s.mem (stackEntry s (s.sp - 1) + 1)))) := by
  rcases pop_cases s with ⟨h, hp⟩ | ⟨h, hr, hp⟩ | ⟨h, hr, hp⟩
  · exact .inl ⟨h, by rw [exec, execRet, hp]; rfl⟩
  · exact .inr (.inl ⟨h, hr, by rw [exec, execRet, hp]; rfl⟩)
  · exact .inr (.inr ⟨h, hr, by rw [exec, execRet, hp]; rfl⟩)

/-- All that `CALL` can answer (R85). -/
theorem exec_call_cases (nnn : Addr) (s : State) :
    (s.sp = 16 ∧ exec (.call nnn) s = .next (raise .stackOverflow s)) ∨
    (s.sp ≠ 16 ∧ ¬inRange (stackEntry s s.sp) 2 ∧
      exec (.call nnn) s = .next (raise (.outOfRangeAccess (max (stackEntry s s.sp) 0x1000) .write) s)) ∨
    (s.sp ≠ 16 ∧ inRange (stackEntry s s.sp) 2 ∧
      exec (.call nnn) s = .next ((s.setStack (putBytes s.mem (stackEntry s s.sp) [highByte s.pc, lowByte s.pc])
        (s.sp + 1)).setPc (addrOperand nnn))) := by
  rcases push_cases s.pc s with ⟨h, hp⟩ | ⟨h, hr, hp⟩ | ⟨h, hr, hp⟩
  · exact .inl ⟨h, by rw [exec, execCall, hp]; rfl⟩
  · exact .inr (.inl ⟨h, hr, by rw [exec, execCall, hp]; rfl⟩)
  · exact .inr (.inr ⟨h, hr, by rw [exec, execCall, hp]; rfl⟩)

/-- All that `LD B` can answer (R133). -/
theorem exec_ldB_cases (x : Nibble) (s : State) :
    (inRange s.i.toNat 3 ∧ exec (.ldB x) s = .next (s.setMem (putBytes s.mem s.i.toNat (bcdDigits (s.getV x))))) ∨
    (¬inRange s.i.toNat 3 ∧ exec (.ldB x) s = .next (raise (.outOfRangeAccess (max s.i.toNat 0x1000) .write) s)) := by
  rcases writeAtI_cases (bcdDigits (s.getV x)) s with ⟨hr, hp⟩ | ⟨hr, hp⟩
  · exact .inl ⟨hr, by rw [exec, execLdB, hp]; rfl⟩
  · exact .inr ⟨hr, by rw [exec, execLdB, hp]; rfl⟩

/-- All that `LD [I], Vx` can answer (R140). -/
theorem exec_ldMemVx_cases (x : Nibble) (s : State) :
    (inRange s.i.toNat (x.toNat + 1) ∧
      exec (.ldMemVx x) s = .next (incrementI x (s.setMem (putBytes s.mem s.i.toNat (firstRegs s (x.toNat + 1)))))) ∨
    (¬inRange s.i.toNat (x.toNat + 1) ∧
      exec (.ldMemVx x) s = .next (raise (.outOfRangeAccess (max s.i.toNat 0x1000) .write) s)) := by
  rcases writeAtI_cases (firstRegs s (x.toNat + 1)) s with ⟨hr, hp⟩ | ⟨hr, hp⟩ <;> rw [firstRegs_length] at hr
  · exact .inl ⟨hr, by rw [exec, execLdMemVx, hp]; rfl⟩
  · exact .inr ⟨hr, by rw [exec, execLdMemVx, hp]; rfl⟩

/-- All that `LD Vx, [I]` can answer (R142). -/
theorem exec_ldVxMem_cases (x : Nibble) (s : State) :
    (inRange s.i.toNat (x.toNat + 1) ∧
      exec (.ldVxMem x) s = .next (incrementI x (putRegs s 0 (bytesAt s.mem s.i.toNat (x.toNat + 1))))) ∨
    (¬inRange s.i.toNat (x.toNat + 1) ∧
      exec (.ldVxMem x) s = .next (raise (.outOfRangeAccess (max s.i.toNat 0x1000) .read) s)) := by
  rcases readAtI_cases (x.toNat + 1) s with ⟨hr, hp⟩ | ⟨hr, hp⟩
  · exact .inl ⟨hr, by rw [exec, execLdVxMem, hp]; rfl⟩
  · exact .inr ⟨hr, by rw [exec, execLdVxMem, hp]; rfl⟩

/-- All that `DRW` can answer (R156). -/
theorem exec_drw_cases (x y n : Nibble) (s : State) :
    (inRange s.i.toNat n.toNat ∧
      exec (.drw x y n) s = .next (drawAt (bytesAt s.mem s.i.toNat n.toNat) (s.getV x).toNat (s.getV y).toNat s)) ∨
    (¬inRange s.i.toNat n.toNat ∧
      exec (.drw x y n) s = .next (raise (.outOfRangeAccess (max s.i.toNat 0x1000) .read) s)) := by
  rcases readAtI_cases n.toNat s with ⟨hr, hp⟩ | ⟨hr, hp⟩
  · exact .inl ⟨hr, by rw [exec, execDrw, hp]; rfl⟩
  · exact .inr ⟨hr, by rw [exec, execDrw, hp]; rfl⟩

end Sys2Proof.Machine
end

