-- ==== Sys2Proof/Laws/Flags.lean ====
section
/-! SUPPORT. The value, as a natural number, of every arithmetic result, flag, operand form and byte of a word. -/

namespace Sys2Proof.Machine

theorem flagByte_toNat (c : Bool) : (flagByte c).toNat = if c = true then 1 else 0 := by cases c <;> rfl

theorem sumByte_toNat (a b : Byte) : (sumByte a b).toNat = (a.toNat + b.toNat) % 256 := by simp [sumByte]

theorem carryFlag_toNat (a b : Byte) : (carryFlag a b).toNat = if a.toNat + b.toNat > 255 then 1 else 0 := by
  simp [carryFlag, flagByte_toNat]

theorem diffByte_toNat (a b : Byte) : (diffByte a b).toNat = (a.toNat + 256 - b.toNat) % 256 := by
  have := a.isLt
  have := b.isLt
  simp [diffByte, BitVec.toNat_ofInt]
  omega

theorem noBorrowFlag_toNat (a b : Byte) : (noBorrowFlag a b).toNat = if a.toNat ≥ b.toNat then 1 else 0 := by
  simp [noBorrowFlag, flagByte_toNat]

theorem shiftRightByte_toNat (a : Byte) : (shiftRightByte a).toNat = a.toNat / 2 := by
  have := a.isLt
  simp [shiftRightByte]
  omega

theorem bitZeroFlag_toNat (a : Byte) : (bitZeroFlag a).toNat = a.toNat % 2 := by revert a; decide

theorem shiftLeftByte_toNat (a : Byte) : (shiftLeftByte a).toNat = a.toNat * 2 % 256 := by simp [shiftLeftByte]

theorem bitSevenFlag_toNat (a : Byte) : (bitSevenFlag a).toNat = a.toNat / 128 := by revert a; decide

theorem addrOperand_toNat (nnn : Addr) : (addrOperand nnn).toNat = nnn.toNat := by
  have := nnn.isLt
  simp [addrOperand]
  omega

theorem indexedTarget_toNat (nnn : Addr) (s : State) : (indexedTarget nnn s).toNat = nnn.toNat + (s.getV 0).toNat := by
  have := nnn.isLt
  have := (s.getV 0).isLt
  simp [indexedTarget]
  omega

theorem indexSum_toNat (x : Nibble) (s : State) : (indexSum x s).toNat = (s.i.toNat + (s.getV x).toNat) % 0x10000 := by
  simp [indexSum]

theorem glyphAddr_toNat (x : Nibble) (s : State) :
    (glyphAddr x s).toNat = (s.params.fontBase + s.params.glyphSize * (s.getV x).toNat) % 0x10000 := by
  simp [glyphAddr]

theorem highByte_toNat (w : Word) : (highByte w).toNat = w.toNat / 256 := by
  have := w.isLt
  simp [highByte]
  rw [Nat.shiftRight_eq_div_pow]
  omega

theorem lowByte_toNat (w : Word) : (lowByte w).toNat = w.toNat % 256 := by simp [lowByte]

theorem word_toNat (hi lo : Byte) : (hi ++ lo : Word).toNat = 256 * hi.toNat + lo.toNat := by
  rw [BitVec.toNat_append, Nat.shiftLeft_eq, Nat.mul_comm, ← Nat.two_pow_add_eq_or_of_lt lo.isLt]

/-- The word of `SYS` is its operand, zero-extended (R66). -/
theorem encode_sys (nnn : Addr) : encode (.sys nnn) = nnn.setWidth 16 := by
  apply BitVec.eq_of_getLsbD_eq
  intro k hk
  rw [encode, bit_formatA, BitVec.getLsbD_setWidth]
  by_cases h : k < 12
  · simp [h, hk]
  · simp only [h, if_false, hk, decide_true, Bool.true_and]
    simpa using (BitVec.getLsbD_of_ge nnn k (by omega)).symm

end Sys2Proof.Machine
end

