-- ==== Sys2Proof/Laws/Graphics.lean ====
section
/-! SUPPORT. Reading a pixel after each framebuffer operation, and when two framebuffers are equal (spec/43_display.md R150, R151). -/

namespace Sys2Proof.Machine

/-- Coordinates wrap (R150). -/
theorem pixel_mod (fb : Framebuffer) (x y : Nat) : pixel fb (x % 64) (y % 32) = pixel fb x y := by
  simp only [pixel, columnOf, rowOf, Nat.mod_mod]

theorem pixel_blankFb (x y : Nat) : pixel blankFb x y = false := by simp [pixel, blankFb]

/-- Reading a pixel after one was set. -/
theorem pixel_setPixel (fb : Framebuffer) (px py X Y : Nat) (b : Bool) :
    pixel (setPixel fb px py b) X Y = if X % 64 = px % 64 ∧ Y % 32 = py % 32 then b else pixel fb X Y := by
  simp only [pixel, setPixel, columnOf, rowOf]
  by_cases hx : px % 64 = X % 64
  · by_cases hy : py % 32 = Y % 32
    · simp [hx, hy]
    · simp [hx, hy, eq_comm]
  · simp [hx, eq_comm]

/-- Two framebuffers with the same pixels are the same. -/
theorem framebuffer_ext {f g : Framebuffer} (h : ∀ x y, x < 64 → y < 32 → pixel f x y = pixel g x y) : f = g := by
  apply Vector.ext
  intro x hx
  apply Vector.ext
  intro y hy
  have := h x y hx hy
  simpa only [pixel, columnOf, rowOf, Nat.mod_eq_of_lt hx, Nat.mod_eq_of_lt hy] using this

end Sys2Proof.Machine
end

