-- ==== Sys2Proof/Laws/PerInstr.lean ====
section
/-! SUPPORT. The family TableRow: the word of every instruction is hit by its row of the opcode table, and the row reads the instruction
back (spec/30_encoding.md R66). One lemma per constructor. -/

namespace Sys2Proof.Laws.TableRow

/-- The encoder's word of `i` is hit by the row at `i`'s place in the table, and that row reads `i` from it. -/
def rowReads (k : Nat) (i : Instr) : Prop := ∃ r, opcodeTable[k]? = some r ∧ r.hits (encode i) = true ∧ r.read (encode i) = i

/-- The place of an instruction's row in the scan order of R66, counted from 0. -/
def place : Instr → Nat
  | .cls => 0
  | .ret => 1
  | .sys _ => 2
  | .jp _ => 3
  | .call _ => 4
  | .seByte _ _ => 5
  | .sneByte _ _ => 6
  | .seReg _ _ => 7
  | .ldByte _ _ => 8
  | .addByte _ _ => 9
  | .ldReg _ _ => 10
  | .orReg _ _ => 11
  | .andReg _ _ => 12
  | .xorReg _ _ => 13
  | .addReg _ _ => 14
  | .subReg _ _ => 15
  | .shr _ _ => 16
  | .subnReg _ _ => 17
  | .shl _ _ => 18
  | .sneReg _ _ => 19
  | .ldI _ => 20
  | .jpV0 _ => 21
  | .rnd _ _ => 22
  | .drw _ _ _ => 23
  | .skp _ => 24
  | .sknp _ => 25
  | .ldVxDt _ => 26
  | .ldVxK _ => 27
  | .ldDtVx _ => 28
  | .ldStVx _ => 29
  | .addI _ => 30
  | .ldF _ => 31
  | .ldB _ => 32
  | .ldMemVx _ => 33
  | .ldVxMem _ => 34

/-- The row at the instruction's place stands for it. -/
def Statement (i : Instr) : Prop := rowReads (place i) i

/-- A row given nibble by nibble that hits the nibbles of a word and reads the instruction from it. -/
theorem rowReads_of_nibbles {k : Nat} {i : Instr} (m₃ m₂ m₁ m₀ p₃ p₂ p₁ p₀ : Nibble) {w₃ w₂ w₁ w₀ : Nibble} (f : Word → Instr)
    (row : opcodeTable[k]? = some ⟨formatXY m₃ m₂ m₁ m₀, formatXY p₃ p₂ p₁ p₀, f⟩) (word : encode i = formatXY w₃ w₂ w₁ w₀)
    (hit : (m₃ &&& w₃ == p₃ && m₂ &&& w₂ == p₂ && m₁ &&& w₁ == p₁ && m₀ &&& w₀ == p₀) = true) (read : f (encode i) = i) :
    rowReads k i :=
  ⟨_, row, by rw [word, hits_formatXY, hit], read⟩

theorem cls : Statement .cls :=
  rowReads_of_nibbles 0xF 0xF 0xF 0xF 0x0 0x0 0xE 0x0 (w₃ := 0x0) (w₂ := 0x0) (w₁ := 0xE) (w₀ := 0x0) _ rfl rfl (by simp) (by simp)

theorem ret : Statement .ret :=
  rowReads_of_nibbles 0xF 0xF 0xF 0xF 0x0 0x0 0xE 0xE (w₃ := 0x0) (w₂ := 0x0) (w₁ := 0xE) (w₀ := 0xE) _ rfl rfl (by simp) (by simp)

theorem sys (nnn : Addr) : Statement (.sys nnn) :=
  rowReads_of_nibbles 0xF 0x0 0x0 0x0 0x0 0x0 0x0 0x0 _ rfl (formatA_eq_nibbles _ _) (by simp) (by simp [encode])

theorem jp (nnn : Addr) : Statement (.jp nnn) :=
  rowReads_of_nibbles 0xF 0x0 0x0 0x0 0x1 0x0 0x0 0x0 _ rfl (formatA_eq_nibbles _ _) (by simp) (by simp [encode])

theorem call (nnn : Addr) : Statement (.call nnn) :=
  rowReads_of_nibbles 0xF 0x0 0x0 0x0 0x2 0x0 0x0 0x0 _ rfl (formatA_eq_nibbles _ _) (by simp) (by simp [encode])

theorem seByte (x : Nibble) (kk : Byte) : Statement (.seByte x kk) :=
  rowReads_of_nibbles 0xF 0x0 0x0 0x0 0x3 0x0 0x0 0x0 _ rfl (formatXK_eq_nibbles _ _ _) (by simp) (by simp [encode])

theorem sneByte (x : Nibble) (kk : Byte) : Statement (.sneByte x kk) :=
  rowReads_of_nibbles 0xF 0x0 0x0 0x0 0x4 0x0 0x0 0x0 _ rfl (formatXK_eq_nibbles _ _ _) (by simp) (by simp [encode])

theorem seReg (x : Nibble) (y : Nibble) : Statement (.seReg x y) :=
  rowReads_of_nibbles 0xF 0x0 0x0 0xF 0x5 0x0 0x0 0x0 _ rfl rfl (by simp) (by simp [encode])

theorem ldByte (x : Nibble) (kk : Byte) : Statement (.ldByte x kk) :=
  rowReads_of_nibbles 0xF 0x0 0x0 0x0 0x6 0x0 0x0 0x0 _ rfl (formatXK_eq_nibbles _ _ _) (by simp) (by simp [encode])

theorem addByte (x : Nibble) (kk : Byte) : Statement (.addByte x kk) :=
  rowReads_of_nibbles 0xF 0x0 0x0 0x0 0x7 0x0 0x0 0x0 _ rfl (formatXK_eq_nibbles _ _ _) (by simp) (by simp [encode])

theorem ldReg (x : Nibble) (y : Nibble) : Statement (.ldReg x y) :=
  rowReads_of_nibbles 0xF 0x0 0x0 0xF 0x8 0x0 0x0 0x0 _ rfl rfl (by simp) (by simp [encode])

theorem orReg (x : Nibble) (y : Nibble) : Statement (.orReg x y) :=
  rowReads_of_nibbles 0xF 0x0 0x0 0xF 0x8 0x0 0x0 0x1 _ rfl rfl (by simp) (by simp [encode])

theorem andReg (x : Nibble) (y : Nibble) : Statement (.andReg x y) :=
  rowReads_of_nibbles 0xF 0x0 0x0 0xF 0x8 0x0 0x0 0x2 _ rfl rfl (by simp) (by simp [encode])

theorem xorReg (x : Nibble) (y : Nibble) : Statement (.xorReg x y) :=
  rowReads_of_nibbles 0xF 0x0 0x0 0xF 0x8 0x0 0x0 0x3 _ rfl rfl (by simp) (by simp [encode])

theorem addReg (x : Nibble) (y : Nibble) : Statement (.addReg x y) :=
  rowReads_of_nibbles 0xF 0x0 0x0 0xF 0x8 0x0 0x0 0x4 _ rfl rfl (by simp) (by simp [encode])

theorem subReg (x : Nibble) (y : Nibble) : Statement (.subReg x y) :=
  rowReads_of_nibbles 0xF 0x0 0x0 0xF 0x8 0x0 0x0 0x5 _ rfl rfl (by simp) (by simp [encode])

theorem shr (x : Nibble) (y : Nibble) : Statement (.shr x y) :=
  rowReads_of_nibbles 0xF 0x0 0x0 0xF 0x8 0x0 0x0 0x6 _ rfl rfl (by simp) (by simp [encode])

theorem subnReg (x : Nibble) (y : Nibble) : Statement (.subnReg x y) :=
  rowReads_of_nibbles 0xF 0x0 0x0 0xF 0x8 0x0 0x0 0x7 _ rfl rfl (by simp) (by simp [encode])

theorem shl (x : Nibble) (y : Nibble) : Statement (.shl x y) :=
  rowReads_of_nibbles 0xF 0x0 0x0 0xF 0x8 0x0 0x0 0xE _ rfl rfl (by simp) (by simp [encode])

theorem sneReg (x : Nibble) (y : Nibble) : Statement (.sneReg x y) :=
  rowReads_of_nibbles 0xF 0x0 0x0 0xF 0x9 0x0 0x0 0x0 _ rfl rfl (by simp) (by simp [encode])

theorem ldI (nnn : Addr) : Statement (.ldI nnn) :=
  rowReads_of_nibbles 0xF 0x0 0x0 0x0 0xA 0x0 0x0 0x0 _ rfl (formatA_eq_nibbles _ _) (by simp) (by simp [encode])

theorem jpV0 (nnn : Addr) : Statement (.jpV0 nnn) :=
  rowReads_of_nibbles 0xF 0x0 0x0 0x0 0xB 0x0 0x0 0x0 _ rfl (formatA_eq_nibbles _ _) (by simp) (by simp [encode])

theorem rnd (x : Nibble) (kk : Byte) : Statement (.rnd x kk) :=
  rowReads_of_nibbles 0xF 0x0 0x0 0x0 0xC 0x0 0x0 0x0 _ rfl (formatXK_eq_nibbles _ _ _) (by simp) (by simp [encode])

theorem drw (x : Nibble) (y : Nibble) (n : Nibble) : Statement (.drw x y n) :=
  rowReads_of_nibbles 0xF 0x0 0x0 0x0 0xD 0x0 0x0 0x0 _ rfl rfl (by simp) (by simp [encode])

theorem skp (x : Nibble) : Statement (.skp x) :=
  rowReads_of_nibbles 0xF 0x0 0xF 0xF 0xE 0x0 0x9 0xE _ rfl ((formatX_eq_formatXK _ _ _).trans (formatXK_eq_nibbles _ _ _)) (by simp) (by simp [encode])

theorem sknp (x : Nibble) : Statement (.sknp x) :=
  rowReads_of_nibbles 0xF 0x0 0xF 0xF 0xE 0x0 0xA 0x1 _ rfl ((formatX_eq_formatXK _ _ _).trans (formatXK_eq_nibbles _ _ _)) (by simp) (by simp [encode])

theorem ldVxDt (x : Nibble) : Statement (.ldVxDt x) :=
  rowReads_of_nibbles 0xF 0x0 0xF 0xF 0xF 0x0 0x0 0x7 _ rfl ((formatX_eq_formatXK _ _ _).trans (formatXK_eq_nibbles _ _ _)) (by simp) (by simp [encode])

theorem ldVxK (x : Nibble) : Statement (.ldVxK x) :=
  rowReads_of_nibbles 0xF 0x0 0xF 0xF 0xF 0x0 0x0 0xA _ rfl ((formatX_eq_formatXK _ _ _).trans (formatXK_eq_nibbles _ _ _)) (by simp) (by simp [encode])

theorem ldDtVx (x : Nibble) : Statement (.ldDtVx x) :=
  rowReads_of_nibbles 0xF 0x0 0xF 0xF 0xF 0x0 0x1 0x5 _ rfl ((formatX_eq_formatXK _ _ _).trans (formatXK_eq_nibbles _ _ _)) (by simp) (by simp [encode])

theorem ldStVx (x : Nibble) : Statement (.ldStVx x) :=
  rowReads_of_nibbles 0xF 0x0 0xF 0xF 0xF 0x0 0x1 0x8 _ rfl ((formatX_eq_formatXK _ _ _).trans (formatXK_eq_nibbles _ _ _)) (by simp) (by simp [encode])

theorem addI (x : Nibble) : Statement (.addI x) :=
  rowReads_of_nibbles 0xF 0x0 0xF 0xF 0xF 0x0 0x1 0xE _ rfl ((formatX_eq_formatXK _ _ _).trans (formatXK_eq_nibbles _ _ _)) (by simp) (by simp [encode])

theorem ldF (x : Nibble) : Statement (.ldF x) :=
  rowReads_of_nibbles 0xF 0x0 0xF 0xF 0xF 0x0 0x2 0x9 _ rfl ((formatX_eq_formatXK _ _ _).trans (formatXK_eq_nibbles _ _ _)) (by simp) (by simp [encode])

theorem ldB (x : Nibble) : Statement (.ldB x) :=
  rowReads_of_nibbles 0xF 0x0 0xF 0xF 0xF 0x0 0x3 0x3 _ rfl ((formatX_eq_formatXK _ _ _).trans (formatXK_eq_nibbles _ _ _)) (by simp) (by simp [encode])

theorem ldMemVx (x : Nibble) : Statement (.ldMemVx x) :=
  rowReads_of_nibbles 0xF 0x0 0xF 0xF 0xF 0x0 0x5 0x5 _ rfl ((formatX_eq_formatXK _ _ _).trans (formatXK_eq_nibbles _ _ _)) (by simp) (by simp [encode])

theorem ldVxMem (x : Nibble) : Statement (.ldVxMem x) :=
  rowReads_of_nibbles 0xF 0x0 0xF 0xF 0xF 0x0 0x6 0x5 _ rfl ((formatX_eq_formatXK _ _ _).trans (formatXK_eq_nibbles _ _ _)) (by simp) (by simp [encode])

end Sys2Proof.Laws.TableRow
end

