-- ==== Sys2Proof/Laws/Step.lean ====
section
/-! SUPPORT. What `exec`, a Step and a step can answer, said once. -/

namespace Sys2Proof.Machine

/-- `exec` never stops: an instruction's own fault is a next state, with the record in FAULT (log 10). -/
theorem exec_answers_next (i : Instr) (s : State) : ∃ t, exec i s = .next t := by
  cases i <;> exact ⟨_, rfl⟩

/-- What the word at PC decodes to is what `resolve` reads from it. -/
theorem decode_word (w : Word) :
    decode [highByte w, lowByte w] = (match resolve w with
      | .ok i => .ok (i, [])
      | .error e => .error e) := by
  cases h : resolve w <;> simp only [decode, highByte_append_lowByte, h]

/-- All that a Step can answer: a fetch fault, an unknown word, or the decoded instruction (R72). -/
theorem coreStep_cases (s : State) :
    (¬inRange s.pc.toNat 2 ∧ coreStep s = .next (raise (.outOfRangeAccess (max s.pc.toNat 0x1000) .read) s)) ∨
    (inRange s.pc.toNat 2 ∧ ∃ w : Word, w = readByte s.mem s.pc.toNat ++ readByte s.mem (s.pc.toNat + 1) ∧
      (∀ i, resolve w ≠ .ok i) ∧ coreStep s = .next (raise (.unknownInstruction w) s.advance)) ∨
    (inRange s.pc.toNat 2 ∧ ∃ i : Instr,
      resolve (readByte s.mem s.pc.toNat ++ readByte s.mem (s.pc.toNat + 1)) = .ok i ∧ coreStep s = exec i s.advance) := by
  rcases checked_cases s.pc.toNat 2 .read (readByte s.mem s.pc.toNat ++ readByte s.mem (s.pc.toNat + 1) : Word) with
    ⟨hr, he⟩ | ⟨hr, he⟩
  · refine .inr ?_
    rw [coreStep, fetch, readWord, he]
    cases hd : resolve (readByte s.mem s.pc.toNat ++ readByte s.mem (s.pc.toNat + 1)) with
    | ok i => exact .inr ⟨hr, i, rfl, by simp only [runWord, decode_word, hd]⟩
    | error e => exact .inl ⟨hr, _, rfl, fun i => by simp [hd], by simp only [runWord, decode_word, hd]⟩
  · refine .inl ⟨hr, ?_⟩
    rw [coreStep, fetch, readWord, he]

/-- A Step always answers a next state. -/
theorem coreStep_answers_next (s : State) : ∃ t, coreStep s = .next t := by
  rcases coreStep_cases s with ⟨_, h⟩ | ⟨_, _, _, _, h⟩ | ⟨_, i, _, h⟩
  · exact ⟨_, h⟩
  · exact ⟨_, h⟩
  · rw [h]
    exact exec_answers_next i _

/-- All that a step can answer, by RUN. -/
theorem step_cases (s : State) :
    (s.run = .running ∧ ∃ t, coreStep { hostTurn s with elapsed := Config.elapsed s.draws } = .next t ∧
      step s = .next (finishTick t)) ∨
    (∃ x, s.run = .waitKey x ∧ step s = .next (waitTurn (Config.keyPress s.draws) (hostTurn s))) ∨
    (s.run = .halted ∧ step s = .fault .halted) := by
  cases h : s.run with
  | running =>
    obtain ⟨t, ht⟩ := coreStep_answers_next { hostTurn s with elapsed := Config.elapsed s.draws }
    exact .inl ⟨rfl, t, ht, by simp only [step, h, engineTick, ht]⟩
  | waitKey x => exact .inr (.inl ⟨x, rfl, by simp only [step, h]⟩)
  | halted => exact .inr (.inr ⟨rfl, by simp only [step, h]⟩)

/-- The accumulation of time changes ACC, DT, ST and TONE alone (R214). -/
theorem accumulate_eq (s : State) :
    accumulate s = if s.acc + s.elapsed ≥ 16 then { timerTick s with acc := s.acc + s.elapsed - 16 }
      else { s with acc := s.acc + s.elapsed } := by
  by_cases h : s.acc + s.elapsed ≥ 16
  · simp only [accumulate, h, if_true]
    rfl
  · simp only [accumulate, h, if_false]

end Sys2Proof.Machine
end

