-- ==== Sys2Proof/Laws/Timers.lean ====
section
/-! SUPPORT. The countdown, the tone gate, and what ends an EngineTick (spec/60_exceptions.md R211 to R215). -/

namespace Sys2Proof.Machine

theorem countDown_toNat (b : Byte) : (countDown b).toNat = b.toNat - 1 := by
  have := b.isLt
  simp [countDown]
  omega

/-- The gate leaves TONE on exactly if ST is above 0, whatever it was (R212). -/
theorem toneGate_eq (b : Byte) (t : Bool) : toneGate b t = decide (b.toNat > 0) := by
  by_cases h : b.toNat > 0
  · cases t <;> simp [toneGate, h]
    omega
  · cases t <;> simp [toneGate, h]
    omega

/-- After a Step, by RUN: time is accumulated, or nothing happens (R214, R215). -/
theorem finishTick_running {s : State} (h : s.run = .running) : finishTick s = accumulate s := by rw [finishTick, h]

theorem finishTick_of_ne {s : State} (h : s.run ≠ .running) : finishTick s = s := by
  rw [finishTick]
  split <;> simp_all

/-- A key that arrives in WAITKEY(x) (R177). -/
theorem keyPress_waiting {s : State} {x : Nibble} (k : Nibble) (h : s.run = .waitKey x) :
    keyPress k s = accumulate ((s.setV x (k.setWidth 8)).setRun .running) := by rw [keyPress, h]

/-- A key that arrives in any other run state (R27). -/
theorem keyPress_of_ne {s : State} (k : Nibble) (h : ∀ x, s.run ≠ .waitKey x) : keyPress k s = s := by
  rw [keyPress]
  split
  · rename_i x hx
    exact absurd hx (h x)
  · rfl
  · rfl

end Sys2Proof.Machine
end

