-- ==== Sys2Proof/Laws/Runs.lean ====
section
/-! SUPPORT. The reset of a given core (spec/70_reset_and_hazards.md R230), and what a step does to a finished run (R251). -/

namespace Sys2Proof.Machine

@[simp] theorem resetCore_run (s : State) : (resetCore s).run = .running := rfl
@[simp] theorem resetCore_fault (s : State) : (resetCore s).fault = none := rfl
@[simp] theorem resetCore_mem (s : State) : (resetCore s).mem = [] := rfl
@[simp] theorem resetCore_sp (s : State) : (resetCore s).sp = 0 := rfl
@[simp] theorem resetCore_pc (s : State) : (resetCore s).pc = 0 := rfl
@[simp] theorem resetCore_params (s : State) : (resetCore s).params = s.params := rfl
@[simp] theorem resetCore_draws (s : State) : (resetCore s).draws = s.draws := rfl

/-- The reset state is its own reset. -/
theorem resetCore_reset : resetCore State.reset = State.reset := rfl

/-- A Step of a finished run leaves every field as it was: it jumps to where it is. -/
theorem coreStep_finished {s : State} (h : s.Finished) : coreStep s = .next s := by
  obtain ⟨_, w, nnn, hf, hd, hp⟩ := h
  simp only [coreStep, hf, runWord, decode_word, hd, exec_jp, hp]
  rfl

/-- A finished run steps on and stays finished: only time and the host's inputs move (R251). -/
theorem step_finished {s : State} (h : s.Finished) : ∃ t, step s = .next t ∧ t.Finished ∧
    t = { s with acc := t.acc, dt := t.dt, st := t.st, tone := t.tone, dirty := t.dirty, elapsed := t.elapsed, draws := s.draws + 1 } := by
  have hu : State.Finished { hostTurn s with elapsed := Config.elapsed s.draws } := h
  refine ⟨accumulate { hostTurn s with elapsed := Config.elapsed s.draws }, ?_, h, rfl⟩
  simp only [step, h.1, engineTick, coreStep_finished hu, finishTick_running hu.1]

end Sys2Proof.Machine
end

