-- ==== Sys2Proof/Tests/Slice0.lean ====
section
/-! SUPPORT. Tests of the model. Every expected value is the spec's: spec/95_test_vectors.md, by the vector named beside each
theorem, or the words and field patterns of spec/30_encoding.md R66. The last part shows that the hypotheses of every obligation can
be met, clause by clause. -/

namespace Sys2Proof.Tests

open Sys2Proof.Machine

/-! ### WellFormed: each check refuses an ill-formed term -/

theorem test_wf_refuses_sys_0E0 : (Instr.sys 0x0E0).wf = false := by decide
theorem test_wf_refuses_sys_0EE : (Instr.sys 0x0EE).wf = false := by decide
theorem test_wf_accepts_neighbours : (Instr.sys 0x0E1).wf = true ∧ (Instr.sys 0x0EF).wf = true ∧ Instr.cls.wf = true := by decide

/-! ### Decode: one word of every constructor (95, table 2.1, and R66's patterns for the rows that table leaves out) -/

theorem test_decode_flow :
    resolve 0x00E0 = .ok .cls ∧ resolve 0x00EE = .ok .ret ∧ resolve 0x00E1 = .ok (.sys 0x0E1) ∧
    resolve 0x0FFF = .ok (.sys 0xFFF) ∧ resolve 0x1ABC = .ok (.jp 0xABC) ∧ resolve 0x2200 = .ok (.call 0x200) ∧
    resolve 0xB123 = .ok (.jpV0 0x123) := by decide

theorem test_decode_skips :
    resolve 0x3A12 = .ok (.seByte 0xA 0x12) ∧ resolve 0x4A12 = .ok (.sneByte 0xA 0x12) ∧
    resolve 0x5AB0 = .ok (.seReg 0xA 0xB) ∧ resolve 0x9AB0 = .ok (.sneReg 0xA 0xB) := by decide

theorem test_decode_load_logic :
    resolve 0x6A12 = .ok (.ldByte 0xA 0x12) ∧ resolve 0x7FFF = .ok (.addByte 0xF 0xFF) ∧
    resolve 0x8AB0 = .ok (.ldReg 0xA 0xB) ∧ resolve 0x8AB1 = .ok (.orReg 0xA 0xB) ∧
    resolve 0x8AB2 = .ok (.andReg 0xA 0xB) ∧ resolve 0x8AB3 = .ok (.xorReg 0xA 0xB) := by decide

theorem test_decode_arithmetic :
    resolve 0x8AB4 = .ok (.addReg 0xA 0xB) ∧ resolve 0x8AB5 = .ok (.subReg 0xA 0xB) ∧
    resolve 0x8AB6 = .ok (.shr 0xA 0xB) ∧ resolve 0x8AB7 = .ok (.subnReg 0xA 0xB) ∧
    resolve 0x8ABE = .ok (.shl 0xA 0xB) ∧ resolve 0xC37F = .ok (.rnd 3 0x7F) := by decide

theorem test_decode_index_memory :
    resolve 0xA123 = .ok (.ldI 0x123) ∧ resolve 0xF21E = .ok (.addI 2) ∧ resolve 0xF429 = .ok (.ldF 4) ∧
    resolve 0xF533 = .ok (.ldB 5) ∧ resolve 0xFF55 = .ok (.ldMemVx 0xF) ∧ resolve 0xFF65 = .ok (.ldVxMem 0xF) := by decide

theorem test_decode_display_timer_key :
    resolve 0xD12F = .ok (.drw 1 2 15) ∧ resolve 0xE09E = .ok (.skp 0) ∧ resolve 0xEFA1 = .ok (.sknp 0xF) ∧
    resolve 0xF007 = .ok (.ldVxDt 0) ∧ resolve 0xF30A = .ok (.ldVxK 3) ∧ resolve 0xF115 = .ok (.ldDtVx 1) ∧
    resolve 0xF118 = .ok (.ldStVx 1) := by decide

theorem test_decode_illegal :
    resolve 0x5AB1 = .error (.unknownInstruction 0x5AB1) ∧ resolve 0x8AB8 = .error (.unknownInstruction 0x8AB8) ∧
    resolve 0xE09F = .error (.unknownInstruction 0xE09F) ∧ resolve 0xFFFF = .error (.unknownInstruction 0xFFFF) := by decide

theorem test_decode_truncated : decode [0x12] = .error .truncated ∧ decode [] = .error .truncated := by decide

/-! ### One Step: the vectors of 95, tables 2.2 to 2.7 -/

/-- The state `s` with the word `w` at 0x200 and PC there. -/
def placed (w : Word) (s : State) : State :=
  { s with pc := 0x200, mem := putBytes s.mem 0x200 [highByte w, lowByte w] }

/-- The state after one Step on the word `w`, or `s` itself if there is none. -/
def after (w : Word) (s : State) : State :=
  match coreStep (placed w s) with
  | .next t => t
  | .fault _ => s
  | .refused _ => s

/-- Reset with one, two or three registers set. -/
def reg1 (x : Nibble) (a : Byte) : State := State.reset.setV x a
def reg2 (x : Nibble) (a : Byte) (y : Nibble) (b : Byte) : State := (reg1 x a).setV y b
def reg3 (x : Nibble) (a : Byte) (y : Nibble) (b : Byte) (z : Nibble) (c : Byte) : State := (reg2 x a y b).setV z c

/-- I set, and bytes at an address. -/
def withI (i : Word) (addr : Nat) (bs : List Byte) (s : State) : State := { s with i := i, mem := putBytes s.mem addr bs }

/-- TF1. -/
theorem test_sys : after 0x0123 State.reset = (placed 0x0123 State.reset).advance := by decide
/-- R81 under SYS_FAULTS. -/
theorem test_sys_faults :
    (after 0x0123 { State.reset with params := { Params.conventional with sysFaults := true } }).fault =
      some (.unknownInstruction 0x0123) := by decide
/-- TF3. -/
theorem test_jp : (after 0x1ABC State.reset).pc = 0x0ABC := by decide
/-- TF7: V0 is added, not V5. -/
theorem test_jpV0 : (after 0xB512 (reg2 0 0x01 5 0x10)).pc = 0x0513 := by decide
/-- TF10: the last free entry. -/
theorem test_call : (after 0x2300 { State.reset with sp := 15 }).sp = 16 ∧ (after 0x2300 { State.reset with sp := 15 }).pc = 0x300 ∧
    readByte (after 0x2300 { State.reset with sp := 15 }).mem 0xEBE = 0x02 ∧
    readByte (after 0x2300 { State.reset with sp := 15 }).mem 0xEBF = 0x02 := by decide
/-- TF11. -/
theorem test_call_overflow : after 0x2300 { State.reset with sp := 16 } =
    { placed 0x2300 { State.reset with sp := 16 } with pc := 0x202, run := .halted, fault := some .stackOverflow } := by decide
/-- TF12. -/
theorem test_ret : (after 0x00EE (withI 0 0xEA0 [0x0A, 0xBC] { State.reset with sp := 1 })).pc = 0x0ABC ∧
    (after 0x00EE (withI 0 0xEA0 [0x0A, 0xBC] { State.reset with sp := 1 })).sp = 0 := by decide
/-- TF13. -/
theorem test_ret_underflow : (after 0x00EE State.reset).fault = some .stackUnderflow ∧ (after 0x00EE State.reset).pc = 0x202 := by decide
/-- TF15, TF16. -/
theorem test_seByte : (after 0x3310 (reg1 3 0x10)).pc = 0x204 ∧ (after 0x3310 (reg1 3 0x11)).pc = 0x202 := by decide
/-- TF17, TF18. -/
theorem test_sneByte : (after 0x4310 (reg1 3 0x10)).pc = 0x202 ∧ (after 0x4311 (reg1 3 0x10)).pc = 0x204 := by decide
/-- TF19, TF20. -/
theorem test_seReg : (after 0x5550 (reg1 5 0x77)).pc = 0x204 ∧ (after 0x5120 (reg2 1 0x07 2 0x08)).pc = 0x202 := by decide
/-- TF21, TF22. -/
theorem test_sneReg : (after 0x9550 (reg1 5 0x77)).pc = 0x202 ∧ (after 0x9120 (reg2 1 0x07 2 0x08)).pc = 0x204 := by decide
/-- TA1, TA2. -/
theorem test_ldByte : (after 0x6A12 State.reset).getV 0xA = 0x12 ∧ (after 0x6FFF State.reset).getV 0xF = 0xFF := by decide
/-- TA3: wraps, VF kept. -/
theorem test_addByte : (after 0x7103 (reg2 1 0xFE 15 0x55)).getV 1 = 0x01 ∧ (after 0x7103 (reg2 1 0xFE 15 0x55)).getV 15 = 0x55 := by decide
/-- TA5. -/
theorem test_ldReg : (after 0x8120 (reg1 2 0x55)).getV 1 = 0x55 := by decide
/-- TA6: VF kept. -/
theorem test_or : (after 0x8121 (reg3 1 0xF0 2 0x0F 15 0x55)).getV 1 = 0xFF ∧
    (after 0x8121 (reg3 1 0xF0 2 0x0F 15 0x55)).getV 15 = 0x55 := by decide
/-- R103 under LOGIC_RESETS_VF, the destination being VF too. -/
theorem test_or_resets_vf :
    (after 0x8F21 { reg1 15 0x55 with params := { Params.conventional with logicResetsVf := true } }).getV 15 = 0 := by decide
/-- TA7. -/
theorem test_and : (after 0x8122 (reg2 1 0xF3 2 0x3F)).getV 1 = 0x33 := by decide
/-- TA8. -/
theorem test_xor : (after 0x8123 (reg2 1 0xFF 2 0x0F)).getV 1 = 0xF0 := by decide
/-- TA10, TA12. -/
theorem test_addReg : (after 0x8014 (reg2 0 0xC8 1 0x64)).getV 0 = 0x2C ∧ (after 0x8014 (reg2 0 0xC8 1 0x64)).getV 15 = 1 ∧
    (after 0x8014 (reg3 0 0x80 1 0x7F 15 1)).getV 15 = 0 := by decide
/-- TA14: x = 15, the flag is written last. -/
theorem test_addReg_into_vf : (after 0x8F14 (reg2 15 0xFF 1 0x64)).getV 15 = 1 := by decide
/-- TA17, TA18: borrow, and equal operands. -/
theorem test_subReg : (after 0x8015 (reg3 0 0x10 1 0x20 15 1)).getV 0 = 0xF0 ∧ (after 0x8015 (reg3 0 0x10 1 0x20 15 1)).getV 15 = 0 ∧
    (after 0x8015 (reg2 0 0x33 1 0x33)).getV 15 = 1 := by decide
/-- TA21: x = 15. -/
theorem test_subReg_into_vf : (after 0x8F15 (reg2 15 0x05 1 0x03)).getV 15 = 1 := by decide
/-- TA22, TA23. -/
theorem test_subnReg : (after 0x8017 (reg2 0 0x10 1 0x30)).getV 0 = 0x20 ∧ (after 0x8017 (reg2 0 0x10 1 0x30)).getV 15 = 1 ∧
    (after 0x8017 (reg3 0 0x20 1 0x10 15 1)).getV 0 = 0xF0 := by decide
/-- TA25, TA26. -/
theorem test_shr : (after 0x8236 (reg1 2 0x05)).getV 2 = 0x02 ∧ (after 0x8236 (reg1 2 0x05)).getV 15 = 1 ∧
    (after 0x82F6 (reg2 2 0x04 15 1)).getV 15 = 0 := by decide
/-- TA27: Vy is not read. -/
theorem test_shr_ignores_vy : (after 0x8236 (reg2 2 0x04 3 0xFF)).getV 2 = 0x02 ∧ (after 0x8236 (reg2 2 0x04 3 0xFF)).getV 3 = 0xFF := by decide
/-- TA30, TA31. -/
theorem test_shl : (after 0x823E (reg1 2 0x81)).getV 2 = 0x02 ∧ (after 0x823E (reg1 2 0x81)).getV 15 = 1 ∧
    (after 0x823E (reg2 2 0x40 15 1)).getV 15 = 0 := by decide
/-- TA34: kk = 0 leaves 0, whatever byte is drawn. -/
theorem test_rnd_mask_zero : (execRnd 0 0x00 (reg1 0 0x99)) = .next ((reg1 0 0x99).setV 0 0).nextDraw := by
  simp [execRnd, randomTo]
/-- TA33: the byte drawn, masked. -/
theorem test_rnd_masks : (randomTo 0xA7 0 0x0F State.reset).getV 0 = 0x07 := by decide
/-- TM1. -/
theorem test_ldI : (after 0xA2F0 State.reset).i = 0x02F0 := by decide
/-- TM3, TM4. -/
theorem test_addI : (after 0xF21E { reg2 2 0x01 15 0x55 with i := 0x0FFF }).i = 0x1000 ∧
    (after 0xF21E { reg1 2 0x01 with i := 0xFFFF }).i = 0 := by decide
/-- TM5, TM6. -/
theorem test_ldF : (after 0xF429 (reg1 4 0x0A)).i = 0x0032 ∧ (after 0xF429 (reg1 4 0xFF)).i = 0x04FB := by decide
/-- TM8. -/
theorem test_ldB : bytesAt (after 0xF533 { reg1 5 0x9C with i := 0x300 }).mem 0x300 3 = [0x01, 0x05, 0x06] := by decide
/-- TM12: nothing is written. -/
theorem test_ldB_out_of_range : after 0xF533 { reg1 5 0x7B with i := 0x0FFE } =
    { placed 0xF533 { reg1 5 0x7B with i := 0x0FFE } with
      pc := 0x202, run := .halted, fault := some (.outOfRangeAccess 0x1000 .write) } := by decide
/-- TM14 (V3 is not stored). -/
theorem test_ldMemVx : bytesAt (after 0xF155 { reg3 0 0x11 1 0x22 2 0x33 with i := 0x400 }).mem 0x400 3 = [0x11, 0x22, 0x00] := by decide
/-- R140 under LOADSTORE_INCREMENTS_I. -/
theorem test_ldMemVx_increments :
    (after 0xF255 { State.reset with i := 0x400, params := { Params.conventional with loadStoreIncrementsI := true } }).i = 0x403 := by decide
/-- TM19. -/
theorem test_ldVxMem : (after 0xF165 (withI 0x400 0x400 [0xAA, 0xBB, 0xCC] (reg1 2 0x77))).getV 1 = 0xBB ∧
    (after 0xF165 (withI 0x400 0x400 [0xAA, 0xBB, 0xCC] (reg1 2 0x77))).getV 2 = 0x77 := by decide
/-- TM21. -/
theorem test_ldVxMem_out_of_range : (after 0xF165 { reg2 0 0x01 1 0x02 with i := 0x0FFF }).getV 0 = 0x01 ∧
    (after 0xF165 { reg2 0 0x01 1 0x02 with i := 0x0FFF }).fault = some (.outOfRangeAccess 0x1000 .read) := by decide
/-- TD1. -/
theorem test_cls : (after 0x00E0 { State.reset with fb := setPixel blankFb 63 31 true }).fb = blankFb ∧
    (after 0x00E0 State.reset).dirty = true := by decide
/-- TD8: a pixel that was on goes off, and VF is 1. -/
theorem test_drw_collision :
    (after 0xD011 { withI 0x300 0x300 [0x80] State.reset with fb := setPixel blankFb 0 0 true }).getV 15 = 1 ∧
    (after 0xD011 { withI 0x300 0x300 [0x80] State.reset with fb := setPixel blankFb 0 0 true }).fb = blankFb := by decide
/-- TD5: both axes wrap (70 mod 64 = 6, 33 mod 32 = 1). -/
theorem test_drw_wraps :
    (after 0xD011 (withI 0x300 0x300 [0x80] (reg2 0 0x46 1 0x21))).fb = setPixel blankFb 6 1 true := by decide
/-- TK5: a key value above 15 is not down. -/
theorem test_skp_out_of_range : (after 0xE39E (reg1 3 0x1B)).pc = 0x202 := by decide
/-- TK6. -/
theorem test_sknp_out_of_range : (after 0xE3A1 (reg1 3 0x1B)).pc = 0x204 := by decide
/-- TK7. -/
theorem test_ldVxDt : (after 0xF107 { State.reset with dt := 42 }).getV 1 = 0x2A := by decide
/-- TK8: ACC is kept. -/
theorem test_ldDtVx : (after 0xF115 { reg1 1 0x3C with acc := 9 }).dt = 60 ∧ (after 0xF115 { reg1 1 0x3C with acc := 9 }).acc = 9 := by decide
/-- TK9. -/
theorem test_ldStVx : (after 0xF318 (reg1 3 0x08)).st = 8 ∧ (after 0xF318 (reg1 3 0x08)).tone = false := by decide
/-- TK10. -/
theorem test_ldVxK : (after 0xF40A State.reset).run = .waitKey 4 ∧ (after 0xF40A State.reset).pc = 0x202 := by decide
/-- TX1. -/
theorem test_unknown : (after 0xFFFF State.reset).fault = some (.unknownInstruction 0xFFFF) ∧ (after 0xFFFF State.reset).pc = 0x202 := by decide

/-! ### Timers, the key wait, primitives and ports (95, tables 2.8 and 2.9) -/

/-- TT4: 16 reaches the threshold, and DT floors at 0. -/
theorem test_accumulate : (accumulate { State.reset with dt := 1, acc := 15, elapsed := 1 }).dt = 0 ∧
    (accumulate { State.reset with dt := 1, acc := 15, elapsed := 1 }).acc = 0 ∧ (timerTick State.reset).dt = 0 := by decide
/-- TT3: one TimerTick per EngineTick, the surplus stays. -/
theorem test_accumulate_surplus : (accumulate { State.reset with dt := 5, elapsed := 40 }).acc = 24 ∧
    (accumulate { State.reset with dt := 5, elapsed := 40 }).dt = 4 := by decide
/-- TT5, TT6: ST = 1 never sounds, ST = 2 sounds after one TimerTick. -/
theorem test_tone : (timerTick { State.reset with st := 1 }).tone = false ∧ (timerTick { State.reset with st := 2 }).tone = true := by decide
/-- TT9: the release of the wait completes the suspended EngineTick. -/
theorem test_keyPress : (keyPress 0xC { State.reset with run := .waitKey 0, acc := 10, dt := 3, elapsed := 6 }).getV 0 = 0x0C ∧
    (keyPress 0xC { State.reset with run := .waitKey 0, acc := 10, dt := 3, elapsed := 6 }).dt = 2 ∧
    (keyPress 0xC { State.reset with run := .waitKey 0, acc := 10, dt := 3, elapsed := 6 }).acc = 0 := by decide
/-- TP2, TP4. -/
theorem test_drawPixel : drawPixel blankFb 197 0 true = (setPixel blankFb 5 0 true, false) ∧
    drawPixel (setPixel blankFb 5 0 true) 5 0 false = (setPixel blankFb 5 0 true, false) := by decide
/-- TP9. -/
theorem test_readBlock : readBlock [] 0xFFF 1 = .ok [0x00] ∧ readBlock [] 0xFFF 2 = .error (.outOfRangeAccess 0x1000 .read) := by decide
/-- TP10. -/
theorem test_getV_port : getVPort 16 State.reset = .error (.invalidRegister 16) := by decide
/-- TP11. -/
theorem test_setPc_port : (setPcPort 0x10200 State.reset).pc = 0x0200 := by decide
/-- TP12. -/
theorem test_load_port : load [1, 2] 0xFFF State.reset = .error (.outOfRangeAccess 0x1000 .write) := by decide
/-- R230: reset leaves the halt, and keeps a STACK_BASE other than 0xEA0. -/
theorem test_reset_core :
    resetCore { State.reset with run := .halted, fault := some .stackOverflow, sp := 16, params := { Params.conventional with stackBase := 0xF00 } } =
      { State.reset with params := { Params.conventional with stackBase := 0xF00 } } := by decide
/-- R238: a window over the font is legal only for a program that does not use it; one over the program never is. -/
theorem test_stack_window :
    stackWindowSafe 0x100 false { Params.conventional with stackBase := 0x010 } ∧
    ¬stackWindowSafe 0x100 true { Params.conventional with stackBase := 0x010 } ∧
    ¬stackWindowSafe 0x100 false { Params.conventional with stackBase := 0x2FF } ∧
    stackWindowSafe 0x100 true { Params.conventional with stackBase := 0x300 } ∧
    ¬stackWindowSafe 0 false { Params.conventional with stackBase := 0xFE1 } := by decide
/-- TF5 and R251: a run whose PC is at a `JP` to its own address is finished. -/
theorem test_finished : (placed 0x1200 State.reset).Finished := ⟨rfl, 0x1200, 0x200, by decide, by decide, by decide⟩
/-- A `JP` elsewhere is not the end of a run. -/
theorem test_not_finished : ¬(placed 0x1201 State.reset).Finished := by
  intro h
  obtain ⟨_, w, nnn, hw, hd, hp⟩ := h
  have e : fetch (placed 0x1201 State.reset) = .ok 0x1201 := by decide
  rw [e] at hw
  cases hw
  cases hd
  revert hp
  decide

/-! ### The hypotheses of the obligations can be met -/

theorem witness_DecodeOfEncode : (Instr.sys 0x0E1).wf = true ∧ (Instr.drw 15 15 15).wf = true := by decide
theorem witness_EncodeOfResolve : resolve 0xFF65 = .ok (.ldVxMem 0xF) := by decide
theorem witness_OnlySysOverlaps_cls : ∃ r q, (0 < 2) ∧ opcodeTable[0]? = some r ∧ opcodeTable[2]? = some q ∧
    r.hits 0x00E0 = true ∧ q.hits 0x00E0 = true := ⟨_, _, by decide, rfl, rfl, by decide, by decide⟩
theorem witness_OnlySysOverlaps_ret : ∃ r q, (1 < 2) ∧ opcodeTable[1]? = some r ∧ opcodeTable[2]? = some q ∧
    r.hits 0x00EE = true ∧ q.hits 0x00EE = true := ⟨_, _, by decide, rfl, rfl, by decide, by decide⟩
theorem witness_OnlySysOverlaps_sys : (0x0EF : Addr) ≠ 0x0E0 ∧ (0x0EF : Addr) ≠ 0x0EE := by decide
/-- One word of each of the five groups, and the nearest legal word of each. -/
theorem witness_IllegalWords :
    (∀ i, resolve 0x5001 ≠ .ok i) ∧ (∀ i, resolve 0x800F ≠ .ok i) ∧ (∀ i, resolve 0x9001 ≠ .ok i) ∧ (∀ i, resolve 0xE09F ≠ .ok i) ∧
    (∀ i, resolve 0xF066 ≠ .ok i) ∧ resolve 0x5000 = .ok (.seReg 0 0) ∧ resolve 0x800E = .ok (.shl 0 0) ∧
    resolve 0x9000 = .ok (.sneReg 0 0) ∧ resolve 0xE09E = .ok (.skp 0) ∧ resolve 0xF065 = .ok (.ldVxMem 0) := by
  refine ⟨?_, ?_, ?_, ?_, ?_, by decide, by decide, by decide, by decide, by decide⟩ <;> intro i h <;> cases h

/-- A running state whose PC is the last fetchable address, on `LD VA, 0x12` (TF25). -/
def atTheEdge : State := { State.reset with pc := 0xFFE, mem := [(0xFFE, 0x6A), (0xFFF, 0x12)] }

theorem witness_StepRuns : atTheEdge.run = .running ∧ atTheEdge.pc.toNat ≤ 0xFFE ∧
    decode [readByte atTheEdge.mem atTheEdge.pc.toNat, readByte atTheEdge.mem (atTheEdge.pc.toNat + 1)] = .ok (.ldByte 0xA 0x12, []) := by decide
theorem witness_FetchBeyond : { State.reset with pc := 0xFFF }.run = .running ∧ { State.reset with pc := 0xFFF }.pc.toNat > 0xFFE ∧
    { State.reset with pc := 0xFFFF }.pc.toNat > 0xFFE := by decide
theorem witness_Unknown : (0xFFE : Word).toNat ≤ 0xFFE ∧
    (0xFFFF : Word) = readByte [(0xFFE, 0xFF), (0xFFF, 0xFF)] 0xFFE ++ readByte [(0xFFE, 0xFF), (0xFFF, 0xFF)] (0xFFE + 1) ∧
    (∀ i, resolve 0xFFFF ≠ .ok i) := ⟨by decide, by decide, fun i h => by cases h⟩
theorem witness_SysFaults : { Params.conventional with sysFaults := true }.sysFaults = true ∧ Params.conventional.sysFaults = false := by decide
theorem witness_Halted : { State.reset with run := .halted }.run = .halted := rfl
/-- A Step that faults at its fetch (PC kept), one that faults at its decode, and one that faults as it executes (PC advanced). -/
theorem witness_FaultsArePrecise :
    (∃ t, coreStep { State.reset with pc := 0xFFF } = .next t ∧ t.run = .halted ∧ t.pc = 0xFFF) ∧
    (∃ t, coreStep (placed 0xFFFF State.reset) = .next t ∧ t.run = .halted ∧ t.pc = 0x202) ∧
    (∃ t, coreStep (placed 0x00EE State.reset) = .next t ∧ t.run = .halted ∧ t.pc = 0x202) :=
  ⟨⟨_, rfl, by decide, by decide⟩, ⟨_, rfl, by decide, by decide⟩, ⟨_, rfl, by decide, by decide⟩⟩
theorem witness_PlacedWord : State.reset.mem.wf ∧ decodeTableWord 16 0x6A12 = some (.ldByte 0xA 0x12) := by decide
/-- The bound is reached: `JP V0, 0xFFF` with V0 = 0xFF (TF8). -/
theorem witness_PcStaysBelow : (placed 0xBFFF (reg1 0 0xFF)).run = .running ∧ (placed 0xBFFF (reg1 0 0xFF)).pc.toNat ≤ 0xFFE ∧
    resolve (readByte (placed 0xBFFF (reg1 0 0xFF)).mem 0x200 ++ readByte (placed 0xBFFF (reg1 0 0xFF)).mem 0x201) ≠ .ok .ret ∧
    ∃ t, coreStep (placed 0xBFFF (reg1 0 0xFF)) = .next t ∧ t.pc.toNat = 0x10FE :=
  ⟨rfl, by decide, by decide, _, rfl, by decide⟩

theorem witness_ToneSounds : (1 : Nat) ≤ 1 ∧ (timerTick^[1] { State.reset with st := 2 }).tone = true := by decide
/-- The three clauses: ACC at 15, ACC at 16, and a Step that leaves RUNNING. -/
theorem witness_EngineTick :
    (∃ t, coreStep { State.reset with elapsed := 15 } = .next t ∧ t.run = .running ∧ t.acc + 15 < 16) ∧
    (∃ t, coreStep { State.reset with elapsed := 16 } = .next t ∧ t.run = .running ∧ t.acc + 16 ≥ 16) ∧
    (∃ t, coreStep { placed 0xF00A State.reset with elapsed := 16 } = .next t ∧ t.run ≠ .running) :=
  ⟨⟨_, rfl, by decide, by decide⟩, ⟨_, rfl, by decide, by decide⟩, ⟨_, rfl, by decide⟩⟩
theorem witness_SixteenMilliseconds : { State.reset with acc := 15, elapsed := 1 }.acc < 16 ∧ { State.reset with acc := 15, elapsed := 1 }.elapsed = 1 := by decide
theorem witness_KeyWait : { State.reset with run := .waitKey 15 }.run = .waitKey 15 := rfl
theorem witness_KeyPress :
    { State.reset with run := .waitKey 15, acc := 9, elapsed := 6 }.run = .waitKey 15 ∧ 9 + 6 < 16 ∧
    { State.reset with run := .waitKey 0, acc := 9, elapsed := 7 }.run = .waitKey 0 ∧ 9 + 7 ≥ 16 ∧
    (∀ x, State.reset.run ≠ .waitKey x) := by decide

theorem witness_MemRead : (1 > 0 ∧ 0x1000 + 1 - 1 > 0xFFF) ∧ (2 > 0 ∧ 0xFFF + 2 - 1 > 0xFFF) ∧ (0 = 0 ∨ 0xFFFF + 0 - 1 ≤ 0xFFF) ∧
    (1 = 0 ∨ 0xFFF + 1 - 1 ≤ 0xFFF) := by decide
theorem witness_MemWrite : State.reset.mem.wf ∧ ([1, 2] : List Byte).length > 0 ∧ 0xFFF + ([1, 2] : List Byte).length - 1 > 0xFFF ∧
    0xFFE + ([1, 2] : List Byte).length - 1 ≤ 0xFFF ∧ ([] : List Byte).length = 0 := by decide
/-- The three clauses of push and `CALL`: a full stack, a window that leaves memory, the last free entry. -/
theorem witness_Push : { State.reset with sp := 16 }.sp = 16 ∧
    (State.reset.sp ≠ 16 ∧ { Params.conventional with stackBase := 0xFFF }.stackBase + 2 * State.reset.sp + 1 > 0xFFF) ∧
    ({ State.reset with sp := 15 }.sp ≠ 16 ∧ State.reset.params.stackBase + 2 * 15 + 1 ≤ 0xFFF ∧ State.reset.mem.wf) ∧
    { Params.conventional with stackBase := 0xFFE }.stackBase + 2 * State.reset.sp + 1 ≤ 0xFFF := by decide
/-- The three clauses of pop and `RET`. -/
theorem witness_Pop : State.reset.sp = 0 ∧
    ({ State.reset with sp := 1 }.sp ≠ 0 ∧ { Params.conventional with stackBase := 0xFFF }.stackBase + 2 * (1 - 1) + 1 > 0xFFF) ∧
    ({ State.reset with sp := 16 }.sp ≠ 0 ∧ State.reset.params.stackBase + 2 * (16 - 1) + 1 ≤ 0xFFF) := by decide
theorem witness_PopAfterPush : State.reset.mem.wf ∧ ∃ t, push 0x0ABC State.reset = .ok t := ⟨by decide, _, rfl⟩

theorem witness_ResetLeavesAllZero : (State.reset = State.reset ∨ ∃ s, State.reset = resetCore s) ∧
    ∃ s t : State, s.run = .halted ∧ t = resetCore s :=
  ⟨.inl rfl, { State.reset with run := .halted }, _, rfl, rfl⟩
theorem reset_inv : State.reset.Inv := ⟨by decide, by decide, by decide, fun _ hf => by cases hf⟩
theorem witness_StepKeepsTheInvariant : State.reset.Inv ∧ ∃ t, step State.reset = .next t := ⟨reset_inv, _, rfl⟩
/-- A waiting state that meets the invariant steps too. -/
theorem witness_StepKeepsTheInvariant_waiting :
    { State.reset with run := .waitKey 3 }.Inv ∧ ∃ t, step { State.reset with run := .waitKey 3 } = .next t :=
  ⟨⟨by decide, by decide, by decide, fun _ hf => by cases hf⟩, _, rfl⟩
theorem witness_StepsNeverChangeParameters : ∃ t, step { State.reset with run := .waitKey 3 } = .next t := ⟨_, rfl⟩

theorem witness_OnlyDestinationRegisters : (∃ t, exec (.addReg 1 2) (reg2 1 0xFF 2 0xFF) = .next t ∧ t.getV 15 = 1) ∧
    writesReg Params.conventional (.addReg 1 2) 14 = false ∧ writesReg Params.conventional (.ldVxMem 3) 4 = false :=
  ⟨⟨_, rfl, by decide⟩, by decide, by decide⟩
theorem witness_OnlyIndexInstructions : (∃ t, exec (.ldMemVx 15) State.reset = .next t) ∧
    writesI Params.conventional (.ldMemVx 15) = false := ⟨⟨_, rfl⟩, by decide⟩
theorem witness_OnlyStoredBytes : State.reset.mem.wf ∧ (∃ t, exec (.ldB 5) { reg1 5 0x9C with i := 0x300 } = .next t) ∧
    ¬Within 0x2FF (storedRange { reg1 5 0x9C with i := 0x300 } (.ldB 5)) ∧ ¬Within 0x303 (storedRange { reg1 5 0x9C with i := 0x300 } (.ldB 5)) :=
  ⟨by decide, ⟨_, rfl⟩, fun h => by have := h.1; revert this; decide, fun h => by have := h.2; revert this; decide⟩
theorem witness_OnlyDisplay : (∃ t, exec .ret State.reset = .next t) ∧ Instr.ret ≠ .cls ∧ (∀ x y n, Instr.ret ≠ .drw x y n) :=
  ⟨⟨_, rfl⟩, by decide, fun _ _ _ h => by cases h⟩
theorem witness_OnlyTransfers : (∃ t, exec (.ldVxK 3) State.reset = .next t) ∧ writesPc (.ldVxK 3) = false := ⟨⟨_, rfl⟩, by decide⟩
theorem witness_TimersDepthAndTone : (∃ t, exec .cls State.reset = .next t) ∧ Instr.cls ≠ .ret ∧ (∀ nnn, Instr.cls ≠ .call nnn) ∧
    (∀ x, Instr.cls ≠ .ldDtVx x) ∧ (∀ x, Instr.cls ≠ .ldStVx x) :=
  ⟨⟨_, rfl⟩, by decide, (fun _ h => nomatch h), (fun _ h => nomatch h), (fun _ h => nomatch h)⟩
/-- The three outcomes: nothing, a fault, a key wait. -/
theorem witness_RunAndFault : (∃ t, exec .cls State.reset = .next t ∧ t.run = .running) ∧
    (∃ t, exec .ret State.reset = .next t ∧ t.run = .halted) ∧ (∃ t, exec (.ldVxK 3) State.reset = .next t ∧ t.run = .waitKey 3) :=
  ⟨⟨_, rfl, by decide⟩, ⟨_, rfl, by decide⟩, ⟨_, rfl, by decide⟩⟩
/-- Two states that differ in every hidden field. -/
theorem witness_HiddenState :
    let u : State := { State.reset with st := 9, acc := 9, tone := true, run := .halted, fault := some .stackOverflow, dirty := true, elapsed := 9 }
    u = { State.reset with st := u.st, acc := u.acc, tone := u.tone, run := u.run, fault := u.fault, dirty := u.dirty, elapsed := u.elapsed } := rfl

/-- The clauses of the block accesses at I: `LD B`, the register arrays, `DRW`. -/
theorem witness_ldB : (0x0FFE : Word).toNat + 2 > 0xFFF ∧ (0x0FFD : Word).toNat + 2 ≤ 0xFFF ∧ State.reset.mem.wf := by decide
theorem witness_registerArray : (0x0FF1 : Word).toNat + (15 : Nibble).toNat > 0xFFF ∧ (0x0FF0 : Word).toNat + (15 : Nibble).toNat ≤ 0xFFF ∧
    (0x0FFF : Word).toNat + (0 : Nibble).toNat ≤ 0xFFF ∧ (0 : Nibble).toNat ≤ (15 : Nibble).toNat := by decide
theorem witness_Drw : ((2 : Nibble).toNat > 0 ∧ (0x0FFF : Word).toNat + (2 : Nibble).toNat - 1 > 0xFFF) ∧
    ((1 : Nibble).toNat = 0 ∨ (0x0FFF : Word).toNat + (1 : Nibble).toNat - 1 ≤ 0xFFF) ∧
    ((0 : Nibble).toNat = 0 ∨ (0xFFFF : Word).toNat + (0 : Nibble).toNat - 1 ≤ 0xFFF) := by decide
theorem witness_DrawSprite : (List.replicate 15 (0xFF : Byte)).length ≤ 15 := by decide
theorem witness_DrwSignals : (withI 0x300 0x300 [0x80] State.reset).dirty = false ∧
    ((1 : Nibble).toNat = 0 ∨ (withI 0x300 0x300 [0x80] State.reset).i.toNat + (1 : Nibble).toNat - 1 ≤ 0xFFF) := by decide
theorem witness_DrawingTwice : (0 : Nibble) ≠ 15 ∧ (14 : Nibble) ≠ 15 ∧
    ((15 : Nibble).toNat = 0 ∨ (0x0FF1 : Word).toNat + (15 : Nibble).toNat - 1 ≤ 0xFFF) := by decide
theorem witness_SecondDraw : (0 : Nibble) ≠ 15 ∧ (1 : Nibble) ≠ 15 ∧ (1 : Nibble).toNat > 0 ∧
    (withI 0x300 0x300 [0x80] State.reset).i.toNat + (1 : Nibble).toNat - 1 ≤ 0xFFF ∧
    (∃ k < (1 : Nibble).toNat, readByte (withI 0x300 0x300 [0x80] State.reset).mem (0x300 + k) ≠ 0) ∧
    ∃ t, exec (.drw 0 1 1) (withI 0x300 0x300 [0x80] State.reset) = .next t :=
  ⟨by decide, by decide, by decide, by decide, ⟨0, by decide, by decide⟩, _, rfl⟩
/-- A key value above 15, whose answer the parameter fixes, and one of 15, whose answer is the host's. -/
theorem witness_KeySkips :
    false = (if ((reg1 3 0x10).getV 3).toNat ≤ 15 then Config.keyDown 0 (BitVec.ofNat 4 ((reg1 3 0x10).getV 3).toNat)
      else (reg1 3 0x10).params.keyOorDown) ∧
    ∃ down, down = (if ((reg1 3 0x0F).getV 3).toNat ≤ 15 then Config.keyDown 0 (BitVec.ofNat 4 ((reg1 3 0x0F).getV 3).toNat)
      else (reg1 3 0x0F).params.keyOorDown) := ⟨rfl, _, rfl⟩
theorem witness_RegisterPort : (15 < 16) ∧ (16 > 15) := by decide
theorem witness_LoadPort : State.reset.mem.wf ∧ ([1, 2] : List Nat).length > 0 ∧ 0xFFF + ([1, 2] : List Nat).length - 1 > 0xFFF ∧
    0xFFE + ([1, 2] : List Nat).length - 1 ≤ 0xFFF ∧ ([1, 0x1FF] : List Nat)[1]? = some 0x1FF := by decide
theorem witness_Boot : (List.replicate 0xE00 0x1FF : List Nat).length ≤ 0xE00 := by rw [List.length_replicate]

end Sys2Proof.Tests
end

section
/-! The host's register port (spec/10_state.md R11, R12, R29): what each call answers, on each side of the index check. -/

namespace Sys2Proof.Machine

/-- `GetV` of a register that exists reads it. -/
theorem getVPort_of_lt {k : Nat} (hk : k < 16) (s : State) : getVPort k s = .ok (s.getV (BitVec.ofNat 4 k)) := if_pos hk

/-- `SetV` of a register that exists writes the low 8 bits of the value. -/
theorem setVPort_of_lt {k : Nat} (hk : k < 16) (value : Nat) (s : State) :
    setVPort k value s = .ok (s.setV (BitVec.ofNat 4 k) (BitVec.ofNat 8 value)) := if_pos hk

theorem getVPort_of_gt {k : Nat} (hk : k > 15) (s : State) : getVPort k s = .error (.invalidRegister k) :=
  if_neg (Nat.not_lt.mpr hk)

theorem setVPort_of_gt {k : Nat} (hk : k > 15) (value : Nat) (s : State) : setVPort k value s = .error (.invalidRegister k) :=
  if_neg (Nat.not_lt.mpr hk)

/-- What `SetV` writes, `GetV` of the same register reads back. -/
theorem getVPort_setV_same {k : Nat} (hk : k < 16) (s : State) (b : Byte) :
    getVPort k (s.setV (BitVec.ofNat 4 k) b) = .ok b := by
  rw [getVPort_of_lt hk, getV_setV, if_pos rfl]

/-- Settles O58: below 16, `SetV` keeps the value modulo 256 and `GetV` reads that byte back (R11); above 15 both ports
fail their index check (R12). -/
theorem registerPortMasksAndChecks : Obligations.RegisterPortMasksAndChecks := by
  intro k value s
  constructor
  · intro hk
    exact ⟨_, setVPort_of_lt hk value s, _, getVPort_setV_same hk s _, BitVec.toNat_ofNat value 8⟩
  · intro hk
    exact ⟨setVPort_of_gt hk value s, getVPort_of_gt hk s⟩

end Sys2Proof.Machine
end

section
/-! Checked reads and the stack (spec/20_memory.md R41, R47, R48): what each access answers on each side of its tests, the
two bytes of a stored stack entry, and the pop that undoes a push. -/

namespace Sys2Proof.Machine

/-! ### Block reads -/

/-- The model's legal range fails exactly where the spec's pseudocode raises (R40). -/
theorem not_inRange_iff {addr n : Nat} : ¬inRange addr n ↔ n > 0 ∧ addr + n - 1 > 0xFFF := by
  rw [not_or]
  omega

/-- Settles O19: outside memory the bounds check faults; inside it the answer is the run of bytes at `addr` (R41). -/
theorem memReadIsCheckedAndOrdered : Obligations.MemReadIsCheckedAndOrdered := by
  intro m addr n
  constructor
  · intro hout
    exact checked_error (not_inRange_iff.mpr hout)
  · intro hin
    exact ⟨bytesAt m addr n, checked_ok hin, bytesAt_length m addr n, fun k hk => bytesAt_getElem? m addr n k hk⟩

/-! ### A word stored big-endian (R42, R43) -/

/-- A range of two bytes is legal exactly when its second byte is inside memory. -/
theorem inRange_two_iff {addr : Nat} : inRange addr 2 ↔ addr + 1 ≤ 0xFFF := by
  show 2 = 0 ∨ addr + 2 - 1 ≤ 0xFFF ↔ _
  omega

section
variable {m : Memory} {addr : Nat} (hm : m.wf) (hr : inRange addr 2) (w : Word)
include hm hr

/-- A read after a word was stored: its high byte, its low byte, or what stood there. -/
theorem readByte_putWord (c : Nat) :
    readByte (putBytes m addr [highByte w, lowByte w]) c =
      if c = addr then highByte w else if c = addr + 1 then lowByte w else readByte m c := by
  have hlow : addr + 1 ≤ 0xFFF := inRange_two_iff.mp hr
  rw [putBytes, putBytes, putBytes, readByte_writeByte (writeByte_wf hm (by omega)), readByte_writeByte hm]
  by_cases hc : c = addr
  · rw [if_neg (by omega), if_pos hc, if_pos hc]
  · rw [if_neg hc, if_neg hc]

theorem readByte_putWord_high : readByte (putBytes m addr [highByte w, lowByte w]) addr = highByte w := by
  rw [readByte_putWord hm hr, if_pos rfl]

theorem readByte_putWord_low : readByte (putBytes m addr [highByte w, lowByte w]) (addr + 1) = lowByte w := by
  rw [readByte_putWord hm hr, if_neg (Nat.succ_ne_self addr), if_pos rfl]

theorem readByte_putWord_outside {c : Nat} (hc : ¬Within c (addr, 2)) :
    readByte (putBytes m addr [highByte w, lowByte w]) c = readByte m c := by
  have hout : ¬(addr ≤ c ∧ c < addr + 2) := hc
  rw [readByte_putWord hm hr, if_neg (by omega), if_neg (by omega)]

end

/-! ### Push and pop, one equation per outcome (R47, R48) -/

/-- Where a stack entry lies depends on the parameters alone (R46). -/
@[simp] theorem stackEntry_setStack (s : State) (m : Memory) (d k : Nat) : stackEntry (s.setStack m d) k = stackEntry s k := rfl

theorem push_full {s : State} (h : s.sp = 16) (a : Word) : push a s = .error .stackOverflow := if_pos h

theorem push_out_of_range {s : State} (h : s.sp ≠ 16) (hr : ¬inRange (stackEntry s s.sp) 2) (a : Word) :
    push a s = .error (.outOfRangeAccess (max (stackEntry s s.sp) 0x1000) .write) := by
  rcases push_cases a s with ⟨hfull, _⟩ | ⟨_, _, hp⟩ | ⟨_, hin, _⟩
  · exact absurd hfull h
  · exact hp
  · exact absurd hin hr

theorem push_in_range {s : State} (h : s.sp ≠ 16) (hr : inRange (stackEntry s s.sp) 2) (a : Word) :
    push a s = .ok (s.setStack (putBytes s.mem (stackEntry s s.sp) [highByte a, lowByte a]) (s.sp + 1)) := by
  rcases push_cases a s with ⟨hfull, _⟩ | ⟨_, hout, _⟩ | ⟨_, _, hp⟩
  · exact absurd hfull h
  · exact absurd hr hout
  · exact hp

/-- A push that succeeds stored its word in a legal entry and raised SP. -/
theorem push_eq_ok {a : Word} {s t : State} (h : push a s = .ok t) :
    inRange (stackEntry s s.sp) 2 ∧
      t = s.setStack (putBytes s.mem (stackEntry s s.sp) [highByte a, lowByte a]) (s.sp + 1) := by
  rcases push_cases a s with ⟨_, hp⟩ | ⟨_, _, hp⟩ | ⟨_, hr, hp⟩ <;> rw [hp] at h
  · cases h
  · cases h
  · exact ⟨hr, (Except.ok.inj h).symm⟩

theorem pop_empty {s : State} (h : s.sp = 0) : pop s = .error .stackUnderflow := if_pos h

theorem pop_out_of_range {s : State} (h : s.sp ≠ 0) (hr : ¬inRange (stackEntry s (s.sp - 1)) 2) :
    pop s = .error (.outOfRangeAccess (max (stackEntry s (s.sp - 1)) 0x1000) .read) := by
  rcases pop_cases s with ⟨hempty, _⟩ | ⟨_, _, hp⟩ | ⟨_, hin, _⟩
  · exact absurd hempty h
  · exact hp
  · exact absurd hin hr

theorem pop_in_range {s : State} (h : s.sp ≠ 0) (hr : inRange (stackEntry s (s.sp - 1)) 2) :
    pop s = .ok (readByte s.mem (stackEntry s (s.sp - 1)) ++ readByte s.mem (stackEntry s (s.sp - 1) + 1),
      s.setStack s.mem (s.sp - 1)) := by
  rcases pop_cases s with ⟨hempty, _⟩ | ⟨_, hout, _⟩ | ⟨_, _, hp⟩
  · exact absurd hempty h
  · exact absurd hr hout
  · exact hp

/-- A pop right after a push answers the pushed word, restores the depth, and leaves the entry's bytes in memory (R48). -/
theorem pop_of_push {a : Word} {s t : State} (hm : s.mem.wf) (h : push a s = .ok t) :
    pop t = .ok (a, t.setStack t.mem s.sp) := by
  obtain ⟨hr, rfl⟩ := push_eq_ok h
  rw [pop_in_range (Nat.succ_ne_zero s.sp) hr]
  simp only [stackEntry_setStack, State.setStack_mem, State.setStack_sp, Nat.add_sub_cancel]
  rw [readByte_putWord_high hm hr, readByte_putWord_low hm hr, highByte_append_lowByte]

/-- Settles O21: the depth test comes first, then the entry's bounds check; the push that passes both stores the word
big-endian and raises SP (R47). -/
theorem pushWritesBigEndianEntry : Obligations.PushWritesBigEndianEntry := by
  intro a s
  refine ⟨fun hfull => push_full hfull a, fun hsp hout => ?_, fun hsp hin hm => ?_⟩
  · exact push_out_of_range hsp (fun hr => Nat.not_le.mpr hout (inRange_two_iff.mp hr)) a
  · have hr : inRange (stackEntry s s.sp) 2 := inRange_two_iff.mpr hin
    refine ⟨_, push_in_range hsp hr a, ?_, ?_, fun c hc => readByte_putWord_outside hm hr a hc, rfl⟩
    · exact (congrArg BitVec.toNat (readByte_putWord_high hm hr a)).trans (highByte_toNat a)
    · exact (congrArg BitVec.toNat (readByte_putWord_low hm hr a)).trans (lowByte_toNat a)

/-- Settles O22: a pop undoes a push; and on any state the depth test comes first, then the bounds check of the top entry, and
the pop that passes both answers the entry big-endian and lowers SP alone (R48). -/
theorem popReadsTheTopEntry : Obligations.PopReadsTheTopEntry := by
  refine ⟨fun a s t hm h => ⟨_, pop_of_push hm h, rfl, rfl⟩, fun s => ⟨pop_empty, fun hsp hout => ?_, fun hsp hin => ?_⟩⟩
  · exact pop_out_of_range hsp fun hr => Nat.not_le.mpr hout (inRange_two_iff.mp hr)
  · exact ⟨_, pop_in_range hsp (inRange_two_iff.mpr hin), word_toNat _ _⟩

end Sys2Proof.Machine
end

section
/-! The scan of the opcode table (spec/30_encoding.md R67, R68): which rows can match the same word, and what `resolve` answers
on a word that a row matches. -/

namespace Sys2Proof

/-! ### Rows that match a common word -/

theorem hits_iff {r : OpcodeRow} {w : Word} : r.hits w = true ↔ r.mask &&& w = r.pattern := beq_iff_eq

/-- Two rows that match a common word have match values that agree on the bits both masks keep: there each is the word's. -/
theorem patterns_agree_of_hits {r q : OpcodeRow} {w : Word} (hr : r.hits w = true) (hq : q.hits w = true) :
    q.mask &&& r.pattern = r.mask &&& q.pattern := by
  rw [← hits_iff.mp hr, ← hits_iff.mp hq, ← BitVec.and_assoc, ← BitVec.and_assoc, BitVec.and_comm q.mask]

/-- Of the rows' match values, only those of `CLS` and of `RET` agree with a later one, and that one is `SYS`'s (R68). -/
theorem agreeing_rows : ∀ (k : Fin opcodeTable.length) (j : Fin k),
    opcodeTable[k].mask &&& opcodeTable[j].pattern = opcodeTable[j].mask &&& opcodeTable[k].pattern → k.val = 2 ∧ j.val < 2 := by
  decide

/-- A row that keeps every bit matches its own match value alone. -/
theorem eq_pattern_of_hits {r : OpcodeRow} {w : Word} (hm : r.mask = 0xFFFF) (h : r.hits w = true) : w = r.pattern := by
  rw [← hits_iff.mp h, hm]
  exact (BitVec.allOnes_and (x := w)).symm

/-- The only words that two rows match are 0x00E0 and 0x00EE: the later row is `SYS`, the earlier `CLS` or `RET` (R68). -/
theorem overlap_is_sys {w : Word} {j k : Nat} {r q : OpcodeRow} (hjk : j < k) (hr : opcodeTable[j]? = some r)
    (hq : opcodeTable[k]? = some q) (hrw : r.hits w = true) (hqw : q.hits w = true) :
    k = 2 ∧ (j = 0 ∧ w = 0x00E0 ∨ j = 1 ∧ w = 0x00EE) := by
  obtain ⟨hk, rfl⟩ := List.getElem?_eq_some_iff.mp hq
  obtain ⟨hj, rfl⟩ := List.getElem?_eq_some_iff.mp hr
  obtain ⟨rfl, hj2⟩ : k = 2 ∧ j < 2 := agreeing_rows ⟨k, hk⟩ ⟨j, hjk⟩ (patterns_agree_of_hits hrw hqw)
  refine ⟨rfl, ?_⟩
  match j, hj2 with
  | 0, _ => exact .inl ⟨rfl, eq_pattern_of_hits rfl hrw⟩
  | 1, _ => exact .inr ⟨rfl, eq_pattern_of_hits rfl hrw⟩

/-! ### What the first match answers -/

/-- A row that matches a word is the first to do so, and `resolve` reads the word by it, unless the row is `SYS` and the word is
that of `CLS` or `RET`: elsewhere the order of the rows is immaterial (R68). -/
theorem resolve_of_hits {w : Word} {k : Nat} {r : OpcodeRow} (hr : opcodeTable[k]? = some r) (hw : r.hits w = true)
    (hsys : k = 2 → w ≠ 0x00E0 ∧ w ≠ 0x00EE) : resolve w = .ok (r.read w) := by
  have hfirst : opcodeTable.find? (fun q => q.hits w) = some r := by
    obtain ⟨hk, rfl⟩ := List.getElem?_eq_some_iff.mp hr
    refine List.find?_eq_some_iff_getElem.mpr ⟨hw, k, hk, rfl, fun j hjk => ?_⟩
    simp only [Bool.not_eq_true', Bool.eq_false_iff]
    intro hjw
    obtain ⟨hk2, ⟨_, he⟩ | ⟨_, he⟩⟩ := overlap_is_sys hjk (List.getElem?_eq_getElem (hjk.trans hk)) hr hjw hw
    · exact (hsys hk2).1 he
    · exact (hsys hk2).2 he
  simp only [resolve, hfirst]

/-- The word of an instruction that stands in the table resolves to it, with the same exception. -/
theorem resolve_of_rowReads {k : Nat} {i : Instr} (h : Laws.TableRow.rowReads k i)
    (hsys : k = 2 → encode i ≠ 0x00E0 ∧ encode i ≠ 0x00EE) : resolve (encode i) = .ok i := by
  obtain ⟨r, hr, hw, hread⟩ := h
  rw [resolve_of_hits hr hw hsys, hread]

/-- The word of `SYS` has its operand in the low 12 bits. -/
theorem nnnOf_encode_sys (nnn : Addr) : nnnOf (encode (.sys nnn)) = nnn := nnnOf_formatA 0x0 nnn

/-- A word 0x0000 to 0x0FFF that is neither `CLS` nor `RET` is `SYS` of its low 12 bits (R68). -/
theorem resolve_sys {nnn : Addr} (hcls : nnn ≠ 0x0E0) (hret : nnn ≠ 0x0EE) :
    resolve (encode (.sys nnn)) = .ok (.sys nnn) :=
  resolve_of_rowReads (Laws.TableRow.sys nnn) fun _ =>
    ⟨fun h => hcls ((nnnOf_encode_sys nnn).symm.trans (congrArg nnnOf h)),
      fun h => hret ((nnnOf_encode_sys nnn).symm.trans (congrArg nnnOf h))⟩

/-- Settles O3: two rows that match one word have agreeing match values, which in the table are only those of `SYS` with `CLS` and
with `RET`; every other word of `SYS` is matched by its row alone (R68). -/
theorem onlySysOverlapsAndLoses : Obligations.OnlySysOverlapsAndLoses := by
  refine ⟨fun _ _ _ _ _ => overlap_is_sys, ?_, ?_, fun nnn hcls hret => ?_⟩
  · exact resolve_of_rowReads Laws.TableRow.cls (fun h => absurd h (by decide))
  · exact resolve_of_rowReads Laws.TableRow.ret (fun h => absurd h (by decide))
  · rw [← Machine.encode_sys nnn]
    exact resolve_sys hcls hret

end Sys2Proof
end

section
/-! Control transfer (spec/40_flow.md): `CALL` and `RET` are a push and a pop whose faults they pass on, so what O21 and O22 say
of the stack carries over to them; a skip is a conditional update of PC alone. -/

namespace Sys2Proof.Machine

/-! ### The subroutine instructions lift the stack operations (R82, R85) -/

theorem exec_call_of_push_ok {s t : State} (h : push s.pc s = .ok t) (nnn : Addr) :
    exec (.call nnn) s = .next (t.setPc (addrOperand nnn)) := by
  rw [exec, execCall, h, orRaise_ok]

theorem exec_call_of_push_error {s : State} {f : FaultRecord} (h : push s.pc s = .error f) (nnn : Addr) :
    exec (.call nnn) s = .next (raise f s) := by
  rw [exec, execCall, h, orRaise_error]

theorem exec_ret_of_pop_ok {s t : State} {a : Word} (h : pop s = .ok (a, t)) : exec .ret s = .next (t.setPc a) := by
  rw [exec, execRet, h, orRaise_ok]

theorem exec_ret_of_pop_error {s : State} {f : FaultRecord} (h : pop s = .error f) : exec .ret s = .next (raise f s) := by
  rw [exec, execRet, h, orRaise_error]

/-- Settles O36: by O21 for the push of the advanced PC, whose fault `CALL` raises and after whose success it only sets PC. -/
theorem callPushesAndJumps : Obligations.CallPushesAndJumps := by
  intro nnn s
  obtain ⟨hfull, hout, hpush⟩ := pushWritesBigEndianEntry s.pc s
  refine ⟨fun hsp => ?_, fun hsp hr => ?_, fun hsp hr hm => ?_⟩
  · exact exec_call_of_push_error (hfull hsp) nnn
  · exact exec_call_of_push_error (hout hsp hr) nnn
  · obtain ⟨t, ht, hhigh, hlow, hrest, hframe⟩ := hpush hsp hr hm
    exact ⟨_, exec_call_of_push_ok ht nnn, addrOperand_toNat nnn, congrArg (State.setPc · (addrOperand nnn)) hframe,
      hhigh, hlow, hrest⟩

/-- Settles O37: by O22 for the pop, whose fault `RET` raises and whose answer becomes PC. -/
theorem retPopsPc : Obligations.RetPopsPc := by
  intro s
  obtain ⟨hempty, hout, hpop⟩ := popReadsTheTopEntry.2 s
  refine ⟨fun hsp => ?_, fun hsp hr => ?_, fun hsp hr => ?_⟩
  · exact exec_ret_of_pop_error (hempty hsp)
  · exact exec_ret_of_pop_error (hout hsp hr)
  · obtain ⟨a, ha, hvalue⟩ := hpop hsp hr
    exact ⟨_, exec_ret_of_pop_ok ha, rfl, hvalue⟩

/-! ### `SYS` and the jumps (R81, R83, R84) -/

theorem exec_sys_of_not_sysFaults {s : State} (h : s.params.sysFaults = false) (nnn : Addr) : exec (.sys nnn) s = .next s := by
  rcases exec_sys_cases nnn s with ⟨hf, _⟩ | ⟨_, he⟩
  · exact absurd (hf.symm.trans h) (by decide)
  · exact he

theorem exec_sys_of_sysFaults {s : State} (h : s.params.sysFaults = true) (nnn : Addr) :
    exec (.sys nnn) s = .next (raise (.unknownInstruction (nnn.setWidth 16)) s) := by
  rcases exec_sys_cases nnn s with ⟨_, he⟩ | ⟨hf, _⟩
  · rw [he, encode_sys]
  · exact absurd (hf.symm.trans h) (by decide)

/-- Settles O35: `SYS` on each value of SYS_FAULTS, and the targets of the two jumps, neither of which wraps in 16 bits. -/
theorem sysDoesNothingAndJumpsSetPc : Obligations.SysDoesNothingAndJumpsSetPc := by
  intro nnn s
  refine ⟨fun h => exec_sys_of_not_sysFaults h nnn, fun h => exec_sys_of_sysFaults h nnn, ?_, ?_⟩
  · exact ⟨_, exec_jp nnn s, addrOperand_toNat nnn, rfl⟩
  · exact ⟨_, exec_jpV0 nnn s, indexedTarget_toNat nnn s, rfl⟩

/-! ### The register skips (R86 to R90) -/

/-- A skip on a test that decides `p` adds 2 to PC exactly when `p` holds, and leaves the rest of the state (R90). -/
theorem skipIf_of_iff {c : Bool} {p : Prop} [Decidable p] (h : c = true ↔ p) (s : State) :
    skipIf c s = { s with pc := if p then s.pc + 2 else s.pc } := by
  by_cases hp : p
  · rw [if_pos hp, h.mpr hp]
    rfl
  · rw [if_neg hp, Bool.eq_false_iff.mpr (mt h.mp hp)]
    rfl

/-- Settles O38: the four tests are Boolean equality and inequality, which decide the comparisons of R86 to R89. -/
theorem skipsCompareAndAddTwo : Obligations.SkipsCompareAndAddTwo := by
  intro x y kk s
  refine ⟨?_, ?_, ?_, ?_⟩
  · rw [exec_seByte, skipIf_of_iff beq_iff_eq]
  · rw [exec_sneByte, skipIf_of_iff bne_iff_ne]
  · rw [exec_seReg, skipIf_of_iff beq_iff_eq]
  · rw [exec_sneReg, skipIf_of_iff bne_iff_ne]

end Sys2Proof.Machine
end

section
/-! Load, arithmetic and logic (spec/41_alu.md): an instruction of this family ends in one of three register updates, a plain
write, a logic write, a result with its flag. One lemma per update says what such an instruction leaves; the byte each
instruction writes is then read off `Laws` by its value. -/

namespace Sys2Proof.Machine

/-! ### Values of registers, as natural numbers, after a write -/

theorem toNat_getV_setV (s : State) (x r : Nibble) (b : Byte) :
    ((s.setV x b).getV r).toNat = if r = x then b.toNat else (s.getV r).toNat := by
  rw [getV_setV, apply_ite BitVec.toNat]

/-- The flag is written last: at `r` = 15 it is what is read, also where `x` = 15 (R116). -/
theorem toNat_getV_setResultFlag (s : State) (x r : Nibble) (result flag : Byte) :
    ((s.setResultFlag x result flag).getV r).toNat =
      if r = 15 then flag.toNat else if r = x then result.toNat else (s.getV r).toNat := by
  rw [getV_setResultFlag, apply_ite BitVec.toNat, apply_ite BitVec.toNat]

/-! ### What an instruction leaves that ends in each of the updates -/

/-- After a plain write the state differs in V alone, and V in `V[x]` alone. -/
theorem exec_answer_of_setV {i : Instr} {s : State} {x : Nibble} {b : Byte} (h : exec i s = .next (s.setV x b)) :
    ∃ t, exec i s = .next t ∧ t = { s with v := t.v } ∧ ∀ r, t.getV r = if r = x then b else s.getV r :=
  ⟨_, h, rfl, fun r => getV_setV s x r b⟩

/-- After a logic write the state differs in V alone; VF is 0 under LOGIC_RESETS_VF, whatever `x` is (R103 to R105). -/
theorem exec_answer_of_setLogic {i : Instr} {s : State} {x : Nibble} {b : Byte} (h : exec i s = .next (s.setLogic x b)) :
    ∃ t, exec i s = .next t ∧ t = { s with v := t.v } ∧
      ∀ r, t.getV r = if r = 15 ∧ s.params.logicResetsVf = true then 0 else if r = x then b else s.getV r := by
  refine ⟨_, h, setLogic_eq s x b, fun r => ?_⟩
  simp only [getV_setLogic, and_comm]

/-- After the write of a result and its flag the state differs in V alone, for a result of value `n` and a flag of value `f`. -/
theorem exec_answer_of_setResultFlag {i : Instr} {s : State} {x : Nibble} {result flag : Byte} {n f : Nat}
    (h : exec i s = .next (s.setResultFlag x result flag)) (hresult : result.toNat = n) (hflag : flag.toNat = f) :
    ∃ t, exec i s = .next t ∧ t = { s with v := t.v } ∧
      ∀ r, (t.getV r).toNat = if r = 15 then f else if r = x then n else (s.getV r).toNat := by
  refine ⟨_, h, rfl, fun r => ?_⟩
  rw [toNat_getV_setResultFlag, hresult, hflag]

/-! ### The instructions -/

/-- Settles O39: each is a plain write of V[x], of kk, of the sum without a flag, of V[y]. -/
theorem loadsAndAddByteWriteVx : Obligations.LoadsAndAddByteWriteVx := by
  intro x y kk s
  refine ⟨exec_answer_of_setV (exec_ldByte x kk s), ?_, exec_answer_of_setV (exec_ldReg x y s)⟩
  refine ⟨_, exec_addByte x kk s, rfl, fun r => ?_⟩
  rw [toNat_getV_setV, sumByte_toNat]

/-- Settles O40: each is a logic write of its bitwise result. -/
theorem logicWritesVx : Obligations.LogicWritesVx := by
  intro x y s
  exact ⟨exec_answer_of_setLogic (exec_orReg x y s), exec_answer_of_setLogic (exec_andReg x y s),
    exec_answer_of_setLogic (exec_xorReg x y s)⟩

/-- Settles O41: the result is the sum modulo 256 (R115), the flag its carry. -/
theorem addSetsCarry : Obligations.AddSetsCarry := by
  intro x y s
  exact exec_answer_of_setResultFlag (exec_addReg x y s) (sumByte_toNat _ _) (carryFlag_toNat _ _)

/-- Settles O42: the result is the integer difference modulo 256 (R115); `SUBN` is `SUB` with minuend and subtrahend exchanged. -/
theorem subtractionsSetNoBorrow : Obligations.SubtractionsSetNoBorrow := by
  intro x y s
  constructor
  · exact exec_answer_of_setResultFlag (exec_subReg x y s) (diffByte_toNat _ _) (noBorrowFlag_toNat _ _)
  · exact exec_answer_of_setResultFlag (exec_subnReg x y s) (diffByte_toNat _ _) (noBorrowFlag_toNat _ _)

/-- Settles O43: the result is half or double the old V[x], the flag its old bit 0 or bit 7; `y` is in neither equation. -/
theorem shiftsMoveOneBitIntoVf : Obligations.ShiftsMoveOneBitIntoVf := by
  intro x y s
  constructor
  · exact exec_answer_of_setResultFlag (exec_shr x y s) (shiftRightByte_toNat _) (bitZeroFlag_toNat _)
  · exact exec_answer_of_setResultFlag (exec_shl x y s) (shiftLeftByte_toNat _) (bitSevenFlag_toNat _)

end Sys2Proof.Machine
end

section
/-! The address register and memory instructions (spec/42_index_memory.md): a run of bytes stored at I reads back byte by byte
and leaves the rest of memory; what each instruction answers on each side of its bounds check. -/

namespace Sys2Proof.Machine

/-! ### Runs of bytes and of registers -/

/-- A range that is not empty is legal exactly when its last address is inside memory (R40). -/
theorem inRange_succ_iff {addr n : Nat} : inRange addr (n + 1) ↔ addr + n ≤ 0xFFF := by
  show n + 1 = 0 ∨ addr + (n + 1) - 1 ≤ 0xFFF ↔ _
  omega

section
variable {m : Memory} {addr : Nat} {bs : List Byte} (hm : m.wf) (hfit : addr + bs.length ≤ 0x1000)
include hm hfit

/-- The `k`-th byte of a stored run reads back at `addr + k`. -/
theorem readByte_putBytes_getElem {k : Nat} (hk : k < bs.length) : readByte (putBytes m addr bs) (addr + k) = bs[k] := by
  rw [readByte_putBytes hm (.inr hfit), dif_pos (by omega)]
  simp only [Nat.add_sub_cancel_left]

/-- A stored run leaves every byte outside it. -/
theorem readByte_putBytes_outside {a : Nat} (ha : ¬Within a (addr, bs.length)) :
    readByte (putBytes m addr bs) a = readByte m a := by
  have hout : ¬(addr ≤ a ∧ a < addr + bs.length) := ha
  rw [readByte_putBytes hm (.inr hfit), dif_neg (by omega)]

end

/-- The `r`-th of the first registers is `V[r]` (R140). -/
theorem firstRegs_getElem (s : State) {n : Nat} {r : Nibble} (hr : r.toNat < (firstRegs s n).length) :
    (firstRegs s n)[r.toNat] = s.getV r := by
  simp only [firstRegs, List.getElem_map, List.getElem_range, BitVec.ofNat_toNat, BitVec.setWidth_eq]

/-- A register after a run of bytes at `addr` was written to the first `n`: `V[r]` holds the byte at `addr + r`, and the
registers from `V[n]` on are kept (R142). -/
theorem getV_putRegs_bytesAt (s : State) (m : Memory) (addr : Nat) {n : Nat} (hn : n ≤ 16) (r : Nibble) :
    (putRegs s 0 (bytesAt m addr n)).getV r = if r.toNat < n then readByte m (addr + r.toNat) else s.getV r := by
  have hlen : 0 + (bytesAt m addr n).length ≤ 16 := by rw [bytesAt_length]; omega
  rw [getV_putRegs s 0 _ hlen]
  by_cases hr : r.toNat < n
  · rw [dif_pos (by rw [bytesAt_length]; omega), if_pos hr]
    exact Option.some.inj ((List.getElem?_eq_getElem _).symm.trans (bytesAt_getElem? m addr n r.toNat hr))
  · rw [dif_neg (by rw [bytesAt_length]; omega), if_neg hr]

/-- I after the increment, as a natural number: moved past the run only under LOADSTORE_INCREMENTS_I (R140, R142). -/
theorem incrementI_i_toNat (x : Nibble) (s : State) :
    (incrementI x s).i.toNat =
      if s.params.loadStoreIncrementsI = true then (s.i.toNat + x.toNat + 1) % 0x10000 else s.i.toNat := by
  rw [incrementI_i, apply_ite BitVec.toNat, BitVec.toNat_ofNat]

/-! ### The decimal digits of a byte (R133) -/

theorem hundreds_toNat (b : Byte) : (BitVec.ofNat 8 (b.toNat / 100)).toNat = b.toNat / 100 :=
  Nat.mod_eq_of_lt (Nat.lt_of_le_of_lt (Nat.div_le_self _ _) b.isLt)

theorem decimalDigit_toNat (n : Nat) : (BitVec.ofNat 8 (n % 10)).toNat = n % 10 :=
  Nat.mod_eq_of_lt (Nat.lt_trans (Nat.mod_lt n (by decide)) (by decide))

/-! ### The instructions -/

/-- Settles O47: `LD [I], Vx` stores the run of the first `x + 1` registers, then moves I or not; the last address it needs is
I + x, which is what the bounds check tests. -/
theorem ldMemStoresRegisterArray : Obligations.LdMemStoresRegisterArray := by
  intro x s
  rcases exec_ldMemVx_cases x s with ⟨hr, he⟩ | ⟨hr, he⟩ <;> rw [inRange_succ_iff] at hr
  · refine ⟨fun hout => absurd hr (Nat.not_le.mpr hout), fun _ hm => ?_⟩
    have hlen : (firstRegs s (x.toNat + 1)).length = x.toNat + 1 := firstRegs_length s _
    have hfit : s.i.toNat + (firstRegs s (x.toNat + 1)).length ≤ 0x1000 := by omega
    refine ⟨_, he, ?_, incrementI_i_toNat x _, fun r hrx => ?_, fun a ha => ?_⟩
    · rw [incrementI_eq]
      rfl
    · rw [incrementI_mem, State.setMem_mem, readByte_putBytes_getElem hm hfit (by omega), firstRegs_getElem]
    · rw [incrementI_mem, State.setMem_mem, readByte_putBytes_outside hm hfit (by rwa [hlen])]
  · exact ⟨fun _ => he, fun hin => absurd hin hr⟩

/-- Settles O48: `LD Vx, [I]` writes the run of `x + 1` bytes at I to the first registers, then moves I or not. -/
theorem ldFromMemLoadsRegisterArray : Obligations.LdFromMemLoadsRegisterArray := by
  intro x s
  rcases exec_ldVxMem_cases x s with ⟨hr, he⟩ | ⟨hr, he⟩ <;> rw [inRange_succ_iff] at hr
  · refine ⟨fun hout => absurd hr (Nat.not_le.mpr hout), fun _ => ⟨_, he, ?_, ?_, fun r => ?_⟩⟩
    · rw [incrementI_eq, putRegs_eq]
      rfl
    · rw [incrementI_i_toNat, putRegs_i, putRegs_params]
    · rw [getV_incrementI, getV_putRegs_bytesAt s _ _ x.isLt]
      simp only [Nat.lt_succ_iff]
  · exact ⟨fun _ => he, fun hin => absurd hin hr⟩

/-- Settles O45: each writes I alone, and its operand form has the stated value. -/
theorem indexInstructionsSetI : Obligations.IndexInstructionsSetI := by
  intro nnn x s
  refine ⟨?_, ?_, ?_⟩
  · exact ⟨_, exec_ldI nnn s, rfl, addrOperand_toNat nnn⟩
  · exact ⟨_, exec_addI x s, rfl, indexSum_toNat x s⟩
  · exact ⟨_, exec_ldF x s, rfl, glyphAddr_toNat x s⟩

/-- Settles O46: `LD B` stores the run of the three digits at I, hundreds first. -/
theorem ldBStoresDecimalDigits : Obligations.LdBStoresDecimalDigits := by
  intro x s
  rcases exec_ldB_cases x s with ⟨hr, he⟩ | ⟨hr, he⟩ <;> rw [inRange_succ_iff] at hr
  · refine ⟨fun hout => absurd hr (Nat.not_le.mpr hout), fun _ hm => ?_⟩
    have hfit : s.i.toNat + (bcdDigits (s.getV x)).length ≤ 0x1000 := Nat.succ_le_succ hr
    have hdigit {k : Nat} (hk : k < 3) :
        readByte (putBytes s.mem s.i.toNat (bcdDigits (s.getV x))) (s.i.toNat + k) = (bcdDigits (s.getV x))[k] :=
      readByte_putBytes_getElem hm hfit hk
    refine ⟨_, he, rfl, ?_, ?_, ?_, fun a ha => readByte_putBytes_outside hm hfit ha⟩
    · exact (congrArg BitVec.toNat (hdigit (k := 0) (by decide))).trans (hundreds_toNat _)
    · exact (congrArg BitVec.toNat (hdigit (k := 1) (by decide))).trans (decimalDigit_toNat _)
    · exact (congrArg BitVec.toNat (hdigit (k := 2) (by decide))).trans (decimalDigit_toNat _)
  · exact ⟨fun _ => he, fun hin => absurd hin hr⟩

end Sys2Proof.Machine
end

section
/-! The display (spec/43_display.md): the single-pixel draw that every sprite is made of (R152), and `CLS` (R151). -/

namespace Sys2Proof.Machine

/-- Coordinates that wrap to the same place address the same pixel (R150). -/
theorem pixel_congr (fb : Framebuffer) {px py X Y : Nat} (hx : X % 64 = px % 64) (hy : Y % 32 = py % 32) :
    pixel fb X Y = pixel fb px py := by
  rw [← pixel_mod fb X Y, hx, hy, pixel_mod]

/-- Reading a pixel after one was drawn. -/
theorem pixel_drawPixel (fb : Framebuffer) (px py X Y : Nat) (b : Bool) :
    pixel (drawPixel fb px py b).1 X Y =
      if X % 64 = px % 64 ∧ Y % 32 = py % 32 then (pixel fb X Y ^^ b) else pixel fb X Y := by
  have hset : pixel (drawPixel fb px py b).1 X Y =
      if X % 64 = px % 64 ∧ Y % 32 = py % 32 then (pixel fb px py ^^ b) else pixel fb X Y :=
    pixel_setPixel fb px py X Y _
  rw [hset]
  split
  next h => rw [pixel_congr fb h.1 h.2]
  next => rfl

/-- The collision of one pixel: it was on and is off (R152). -/
theorem drawPixel_collision (fb : Framebuffer) (px py : Nat) (b : Bool) :
    (drawPixel fb px py b).2 = (pixel fb px py && !pixel (drawPixel fb px py b).1 px py) := by
  rw [pixel_drawPixel, if_pos ⟨rfl, rfl⟩]
  rfl

/-- Settles O50: the pixel drawn is set to its old value XOR the bit, and the collision compares that old value with the new one. -/
theorem drawPixelXorsOnePixel : Obligations.DrawPixelXorsOnePixel := fun fb px py b =>
  ⟨fun X Y => pixel_drawPixel fb px py X Y b, drawPixel_collision fb px py b⟩

/-- Settles O49: `CLS` puts the blank framebuffer in place of any other, and sets DIRTY without looking at either. -/
theorem clsClearsAndSignals : Obligations.ClsClearsAndSignals := fun s =>
  ⟨s.setFb blankFb true, exec_cls s, rfl, pixel_blankFb⟩

end Sys2Proof.Machine
end

section
/-! The timer registers (spec/44_timer_key.md, R172 to R174): the three copies write one register each, and no TONE or ACC. -/

namespace Sys2Proof.Machine

/-- Settles O56: `LD Vx, DT` is one register write of DT, and the other two are the timers' own setters applied to V[x]. -/
theorem timerRegistersAreCopied : Obligations.TimerRegistersAreCopied := fun x s =>
  ⟨exec_answer_of_setV (exec_ldVxDt x s), exec_ldDtVx x s, exec_ldStVx x s⟩

end Sys2Proof.Machine
end

section
/-! Faults and time around a Step (spec/60_exceptions.md): an instruction either raises a fault in the state it found, or completes,
never HALTED if it began RUNNING and with the latched `elapsed` kept. Lifted to the Step, that one dichotomy gives both the precision of faults
(R198) and the accumulation that follows a Step (R214). -/

namespace Sys2Proof.Machine

/-- What `t` keeps of `s` when an instruction completes without a fault: RUN, unless a key is now awaited (R176), and the argument
of the EngineTick in progress (log 6). -/
def Completes (s t : State) : Prop := (t.run = s.run ∨ ∃ x, t.run = .waitKey x) ∧ t.elapsed = s.elapsed

theorem Completes.run_ne_halted {s t : State} (h : Completes s t) (hs : s.run = .running) : t.run ≠ .halted := by
  obtain ⟨hrun | ⟨x, hrun⟩, _⟩ := h
  · rw [hrun, hs]
    decide
  · rw [hrun]
    nofun

/-- The two ways an instruction ends (R198): a fault raised in the very state it was given, or completion. -/
theorem exec_raises_or_completes (i : Instr) (s : State) :
    (∃ f, exec i s = .next (raise f s)) ∨ ∃ t, exec i s = .next t ∧ Completes s t := by
  cases i with
  | sys nnn =>
    rcases exec_sys_cases nnn s with ⟨_, h⟩ | ⟨_, h⟩
    · exact .inl ⟨_, h⟩
    · exact .inr ⟨_, h, .inl rfl, rfl⟩
  | ret =>
    rcases exec_ret_cases s with ⟨_, h⟩ | ⟨_, _, h⟩ | ⟨_, _, h⟩
    · exact .inl ⟨_, h⟩
    · exact .inl ⟨_, h⟩
    · exact .inr ⟨_, h, .inl rfl, rfl⟩
  | call nnn =>
    rcases exec_call_cases nnn s with ⟨_, h⟩ | ⟨_, _, h⟩ | ⟨_, _, h⟩
    · exact .inl ⟨_, h⟩
    · exact .inl ⟨_, h⟩
    · exact .inr ⟨_, h, .inl rfl, rfl⟩
  | ldB x =>
    rcases exec_ldB_cases x s with ⟨_, h⟩ | ⟨_, h⟩
    · exact .inr ⟨_, h, .inl rfl, rfl⟩
    · exact .inl ⟨_, h⟩
  | ldMemVx x =>
    rcases exec_ldMemVx_cases x s with ⟨_, h⟩ | ⟨_, h⟩
    · exact .inr ⟨_, h, .inl (incrementI_run x _), incrementI_elapsed x _⟩
    · exact .inl ⟨_, h⟩
  | ldVxMem x =>
    rcases exec_ldVxMem_cases x s with ⟨_, h⟩ | ⟨_, h⟩
    · refine .inr ⟨_, h, .inl ?_, ?_⟩
      · rw [incrementI_run, putRegs_run]
      · rw [incrementI_elapsed, putRegs_elapsed]
    · exact .inl ⟨_, h⟩
  | drw x y n =>
    rcases exec_drw_cases x y n s with ⟨_, h⟩ | ⟨_, h⟩
    · exact .inr ⟨_, h, .inl rfl, rfl⟩
    · exact .inl ⟨_, h⟩
  | ldVxK x => exact .inr ⟨_, exec_ldVxK x s, .inr ⟨x, rfl⟩, rfl⟩
  | orReg x y | andReg x y | xorReg x y =>
    exact .inr ⟨_, rfl, .inl (setLogic_run s x _), setLogic_elapsed s x _⟩
  | seByte x kk | sneByte x kk | seReg x y | sneReg x y | skp x | sknp x =>
    exact .inr ⟨_, rfl, .inl (skipIf_run _ s), skipIf_elapsed _ s⟩
  | cls | jp | jpV0 | ldByte | addByte | ldReg | addReg | subReg | shr | subnReg | shl | rnd | ldI | addI | ldF | ldVxDt | ldDtVx |
    ldStVx => exact .inr ⟨_, rfl, .inl rfl, rfl⟩

/-- The PC a faulting Step leaves: advanced, unless the fetch itself faulted (R198). -/
def faultPc (s : State) : Word := if s.pc.toNat > 0xFFE then s.pc else s.pc + 2

theorem setPc_faultPc_of_fetch_fault {s : State} (h : ¬inRange s.pc.toNat 2) : s.setPc (faultPc s) = s := by
  have hpc : s.pc.toNat > 0xFFE := by
    rw [inRange_two_iff] at h
    omega
  rw [faultPc, if_pos hpc]
  rfl

theorem setPc_faultPc_of_fetched {s : State} (h : inRange s.pc.toNat 2) : s.setPc (faultPc s) = s.advance := by
  have hpc : ¬s.pc.toNat > 0xFFE := by
    rw [inRange_two_iff] at h
    omega
  rw [faultPc, if_neg hpc]
  rfl

/-- The two ways a Step ends: a fault raised in the state before it but for PC, or completion. -/
theorem coreStep_raises_or_completes (s : State) :
    (∃ f, coreStep s = .next (raise f (s.setPc (faultPc s)))) ∨ ∃ t, coreStep s = .next t ∧ Completes s t := by
  rcases coreStep_cases s with ⟨hr, h⟩ | ⟨hr, w, _, _, h⟩ | ⟨hr, i, _, h⟩
  · rw [setPc_faultPc_of_fetch_fault hr]
    exact .inl ⟨_, h⟩
  · rw [setPc_faultPc_of_fetched hr]
    exact .inl ⟨_, h⟩
  · rw [setPc_faultPc_of_fetched hr, h]
    exact exec_raises_or_completes i s.advance

/-- Settles O10: a Step that completes is not HALTED, and one that does not is `raise` in the state before it but for PC. -/
theorem faultsArePrecise : Obligations.FaultsArePrecise := by
  intro s t hrunning hstep hhalted
  rcases coreStep_raises_or_completes s with ⟨f, h⟩ | ⟨u, h, hu⟩
  · cases hstep.symm.trans h
    exact ⟨⟨f, rfl⟩, rfl⟩
  · cases hstep.symm.trans h
    exact absurd hhalted (hu.run_ne_halted hrunning)

/-- Settles O8: of the three things a Step can answer, a fetched word of no instruction leaves only the decoder's fault; under
SYS_FAULTS `SYS` raises its own word. -/
theorem unknownInstructionHaltsWithTheWord : Obligations.UnknownInstructionHaltsWithTheWord := by
  refine ⟨fun s w hpc hw hunknown => ?_, fun s nnn h => exec_sys_of_sysFaults h nnn⟩
  rcases coreStep_cases s with ⟨hr, _⟩ | ⟨_, w', hw', _, h⟩ | ⟨_, i, hi, _⟩
  · exact absurd (inRange_two_iff.mpr (by omega)) hr
  · cases hw.trans hw'.symm
    exact h
  · exact absurd hi (hw ▸ hunknown i)

/-- A Step keeps the argument of its EngineTick, fault or not. -/
theorem coreStep_elapsed {s t : State} (h : coreStep s = .next t) : t.elapsed = s.elapsed := by
  rcases coreStep_raises_or_completes s with ⟨f, hf⟩ | ⟨u, hu, _, helapsed⟩
  · cases h.symm.trans hf
    rfl
  · cases h.symm.trans hu
    exact helapsed

/-- An EngineTick is its Step and what `finishTick` makes of it (R214). -/
theorem engineTick_of_coreStep {e : Nat} {s t : State} (h : coreStep { s with elapsed := e } = .next t) :
    engineTick e s = .next (finishTick t) := by
  rw [engineTick, h]

/-- Settles O15: the Step hands on `e`, which `accumulate` then adds to ACC on either side of the threshold, or not at all. -/
theorem engineTickAccumulatesElapsed : Obligations.EngineTickAccumulatesElapsed := by
  intro e s t h
  have helapsed : t.elapsed = e := coreStep_elapsed h
  rw [engineTick_of_coreStep h]
  refine ⟨fun hrun hbelow => ?_, fun hrun hreached => ?_, fun hrun => ?_⟩
  · rw [finishTick_running hrun, accumulate_eq, helapsed, if_neg (by omega)]
  · rw [finishTick_running hrun, accumulate_eq, helapsed, if_pos hreached]
  · rw [finishTick_of_ne hrun]

/-- Settles O13: both timers count down with a floor at 0, and the gate looks at the ST so left, whatever TONE was. -/
theorem timerTickCountsDownAndGates : Obligations.TimerTickCountsDownAndGates := by
  intro s
  refine ⟨countDown_toNat s.dt, countDown_toNat s.st, ?_, rfl⟩
  rw [timerTick_tone, toneGate_eq, countDown_toNat]

end Sys2Proof.Machine
end

section
/-! The decoder and the encoder are inverse to each other (spec/30_encoding.md R62, R66, R67), and which words are illegal (R70).
Both rest on one reading of the table: a row of each of its four masks matches a word exactly where the opcode nibble, and the
last nibble or the last byte where the mask keeps it, are the row's. -/

namespace Sys2Proof

/-! ### Decoding an encoded instruction -/

/-- Every instruction stands in the table: the family `TableRow`, over all constructors (R66). -/
theorem tableRow_statement (i : Instr) : Laws.TableRow.Statement i := by
  cases i with
  | cls => exact Laws.TableRow.cls
  | ret => exact Laws.TableRow.ret
  | sys nnn => exact Laws.TableRow.sys nnn
  | jp nnn => exact Laws.TableRow.jp nnn
  | call nnn => exact Laws.TableRow.call nnn
  | seByte x kk => exact Laws.TableRow.seByte x kk
  | sneByte x kk => exact Laws.TableRow.sneByte x kk
  | seReg x y => exact Laws.TableRow.seReg x y
  | ldByte x kk => exact Laws.TableRow.ldByte x kk
  | addByte x kk => exact Laws.TableRow.addByte x kk
  | ldReg x y => exact Laws.TableRow.ldReg x y
  | orReg x y => exact Laws.TableRow.orReg x y
  | andReg x y => exact Laws.TableRow.andReg x y
  | xorReg x y => exact Laws.TableRow.xorReg x y
  | addReg x y => exact Laws.TableRow.addReg x y
  | subReg x y => exact Laws.TableRow.subReg x y
  | shr x y => exact Laws.TableRow.shr x y
  | subnReg x y => exact Laws.TableRow.subnReg x y
  | shl x y => exact Laws.TableRow.shl x y
  | sneReg x y => exact Laws.TableRow.sneReg x y
  | ldI nnn => exact Laws.TableRow.ldI nnn
  | jpV0 nnn => exact Laws.TableRow.jpV0 nnn
  | rnd x kk => exact Laws.TableRow.rnd x kk
  | drw x y n => exact Laws.TableRow.drw x y n
  | skp x => exact Laws.TableRow.skp x
  | sknp x => exact Laws.TableRow.sknp x
  | ldVxDt x => exact Laws.TableRow.ldVxDt x
  | ldVxK x => exact Laws.TableRow.ldVxK x
  | ldDtVx x => exact Laws.TableRow.ldDtVx x
  | ldStVx x => exact Laws.TableRow.ldStVx x
  | addI x => exact Laws.TableRow.addI x
  | ldF x => exact Laws.TableRow.ldF x
  | ldB x => exact Laws.TableRow.ldB x
  | ldMemVx x => exact Laws.TableRow.ldMemVx x
  | ldVxMem x => exact Laws.TableRow.ldVxMem x

/-- A well-formed `SYS` is none of the two words that the entries before it take (R68). -/
theorem wf_sys_iff {nnn : Addr} : (Instr.sys nnn).wf = true ↔ nnn ≠ 0x0E0 ∧ nnn ≠ 0x0EE := by
  simp only [Instr.wf, Bool.and_eq_true, bne_iff_ne]

theorem eq_sys_of_place {i : Instr} (h : Laws.TableRow.place i = 2) : ∃ nnn, i = .sys nnn := by
  cases i with
  | sys nnn => exact ⟨nnn, rfl⟩
  | _ => exact absurd h (by simp [Laws.TableRow.place])

/-- The word of a well-formed instruction resolves to it. -/
theorem resolve_encode {i : Instr} (hwf : i.wf = true) : resolve (encode i) = .ok i := by
  by_cases hplace : Laws.TableRow.place i = 2
  · obtain ⟨nnn, rfl⟩ := eq_sys_of_place hplace
    exact resolve_sys (wf_sys_iff.mp hwf).1 (wf_sys_iff.mp hwf).2
  · exact resolve_of_rowReads (tableRow_statement i) fun h => absurd h hplace

/-- Decoding two bytes and more resolves their word and leaves the rest. -/
theorem decode_of_resolve {hi lo : Byte} {i : Instr} (h : resolve (hi ++ lo) = .ok i) (rest : List Byte) :
    decode (hi :: lo :: rest) = .ok (i, rest) := by
  simp only [decode, h]

/-- Settles O1: the two bytes are the word of `i` again, which its own row of the table is the first to match. -/
theorem decodeOfEncodeIsTheInstruction : Obligations.DecodeOfEncodeIsTheInstruction := by
  intro i rest hwf
  refine decode_of_resolve ?_ rest
  rw [highByte_append_lowByte]
  exact resolve_encode hwf

/-! ### Fields and nibbles of a word (R61, R62) -/

/-- Two adjacent fields of a word are the field that spans both. -/
theorem adjacent_fields {w : Nat} (x : BitVec w) (k m n : Nat) :
    x.extractLsb' (k + m) n ++ x.extractLsb' k m = x.extractLsb' k (n + m) :=
  BitVec.extractLsb'_append_extractLsb'_eq_extractLsb' rfl

/-- The low byte of a word is its last two nibbles. -/
theorem kkOf_eq_nibbles (w : Word) : kkOf w = (yOf w ++ nOf w : Byte) := (adjacent_fields w 0 4 4).symm

theorem kkOf_eq_iff (w : Word) (b : Byte) : kkOf w = b ↔ yOf w = b.extractLsb' 4 4 ∧ nOf w = b.extractLsb' 0 4 := by
  have hb : b = b.extractLsb' 4 4 ++ b.extractLsb' 0 4 :=
    BitVec.extractLsb'_eq_self.symm.trans (adjacent_fields b 0 4 4).symm
  conv_lhs => rw [kkOf_eq_nibbles, hb]
  exact append_eq_append_iff _ _ _ _

/-- A word is its opcode nibble and its address field, in format A. -/
theorem formatA_fields (w : Word) : formatA (w.extractLsb' 12 4) (nnnOf w) = w :=
  (adjacent_fields w 0 12 4).trans BitVec.extractLsb'_eq_self

/-- A word is its opcode nibble, its register and its low byte, in format XK. -/
theorem formatXK_fields (w : Word) : formatXK (w.extractLsb' 12 4) (xOf w) (kkOf w) = w := by
  have hhigh : (w.extractLsb' 12 4 ++ xOf w : Byte) = w.extractLsb' 8 8 := adjacent_fields w 8 4 4
  rw [formatXK, hhigh]
  exact (adjacent_fields w 0 8 8).trans BitVec.extractLsb'_eq_self

/-- The first of the nibbles a word is given by is its opcode nibble. -/
@[simp] theorem opcode_formatXY (op x y low : Nibble) : (formatXY op x y low).extractLsb' 12 4 = op := by
  apply BitVec.eq_of_getLsbD_eq
  intro k hk
  have hk' : 12 + k - 4 - 4 - 4 = k := by omega
  rw [BitVec.getLsbD_extractLsb', bit_formatXY, if_neg (by omega), if_neg (by omega), if_neg (by omega), hk']
  simp [hk]

/-! ### When a row matches a word -/

/-- A row matches a word exactly where it does so nibble by nibble (R67). -/
theorem hits_iff_nibbles (r : OpcodeRow) (w : Word) :
    r.hits w = true ↔
      r.mask.extractLsb' 12 4 &&& w.extractLsb' 12 4 = r.pattern.extractLsb' 12 4 ∧ xOf r.mask &&& xOf w = xOf r.pattern ∧
        yOf r.mask &&& yOf w = yOf r.pattern ∧ nOf r.mask &&& nOf w = nOf r.pattern := by
  obtain ⟨m, p, f⟩ := r
  conv_lhs => rw [word_eq_nibbles w, word_eq_nibbles m, word_eq_nibbles p, hits_formatXY]
  simp only [Bool.and_eq_true, beq_iff_eq, and_assoc]

/-- A nibble that the mask keeps. -/
theorem kept_nibble (a : Nibble) : 15#4 &&& a = a := BitVec.allOnes_and

/-- A row of mask F000 matches the words of its opcode nibble. -/
theorem hits_opcode_iff {p : Nibble} {f : Word → Instr} {w : Word} :
    OpcodeRow.hits ⟨formatXY 0xF 0 0 0, formatXY p 0 0 0, f⟩ w = true ↔ w.extractLsb' 12 4 = p := by
  simp [hits_iff_nibbles, kept_nibble]

/-- A row of mask F00F matches the words of its opcode nibble and its last nibble. -/
theorem hits_opcode_low_iff {p q : Nibble} {f : Word → Instr} {w : Word} :
    OpcodeRow.hits ⟨formatXY 0xF 0 0 0xF, formatXY p 0 0 q, f⟩ w = true ↔ w.extractLsb' 12 4 = p ∧ nOf w = q := by
  simp [hits_iff_nibbles, kept_nibble]

/-- A row of mask F0FF matches the words of its opcode nibble and its low byte. -/
theorem hits_opcode_byte_iff {p q₁ q₀ : Nibble} {f : Word → Instr} {w : Word} :
    OpcodeRow.hits ⟨formatXY 0xF 0 0xF 0xF, formatXY p 0 q₁ q₀, f⟩ w = true ↔
      w.extractLsb' 12 4 = p ∧ kkOf w = q₁ ++ q₀ := by
  rw [kkOf_eq_nibbles, append_eq_append_iff]
  simp [hits_iff_nibbles, kept_nibble]

/-! ### No row drops a bit of a word it matches -/

/-- Every word that the row matches is the word of the instruction it reads from it. -/
def OpcodeRow.Faithful (r : OpcodeRow) : Prop := ∀ w, r.hits w = true → encode (r.read w) = w

theorem faithful_fixed {i : Instr} {p : Word} (h : encode i = p) : OpcodeRow.Faithful ⟨0xFFFF, p, fun _ => i⟩ :=
  fun _ hw => h.trans (eq_pattern_of_hits rfl hw).symm

theorem faithful_address (p : Nibble) {f : Addr → Instr} (h : ∀ nnn, encode (f nnn) = formatA p nnn) :
    OpcodeRow.Faithful ⟨formatXY 0xF 0 0 0, formatXY p 0 0 0, fun w => f (nnnOf w)⟩ := by
  intro w hw
  rw [h, ← hits_opcode_iff.mp hw, formatA_fields]

theorem faithful_registerByte (p : Nibble) {f : Nibble → Byte → Instr} (h : ∀ x kk, encode (f x kk) = formatXK p x kk) :
    OpcodeRow.Faithful ⟨formatXY 0xF 0 0 0, formatXY p 0 0 0, fun w => f (xOf w) (kkOf w)⟩ := by
  intro w hw
  rw [h, ← hits_opcode_iff.mp hw, formatXK_fields]

theorem faithful_sprite (p : Nibble) {f : Nibble → Nibble → Nibble → Instr} (h : ∀ x y n, encode (f x y n) = formatXY p x y n) :
    OpcodeRow.Faithful ⟨formatXY 0xF 0 0 0, formatXY p 0 0 0, fun w => f (xOf w) (yOf w) (nOf w)⟩ := by
  intro w hw
  rw [h, ← hits_opcode_iff.mp hw, ← word_eq_nibbles]

theorem faithful_registers (p q : Nibble) {f : Nibble → Nibble → Instr} (h : ∀ x y, encode (f x y) = formatXY p x y q) :
    OpcodeRow.Faithful ⟨formatXY 0xF 0 0 0xF, formatXY p 0 0 q, fun w => f (xOf w) (yOf w)⟩ := by
  intro w hw
  obtain ⟨hp, hq⟩ := hits_opcode_low_iff.mp hw
  rw [h, ← hp, ← hq, ← word_eq_nibbles]

theorem faithful_register (p q₁ q₀ : Nibble) {f : Nibble → Instr} (h : ∀ x, encode (f x) = formatX p x (q₁ ++ q₀)) :
    OpcodeRow.Faithful ⟨formatXY 0xF 0 0xF 0xF, formatXY p 0 q₁ q₀, fun w => f (xOf w)⟩ := by
  intro w hw
  obtain ⟨hp, hq⟩ := hits_opcode_byte_iff.mp hw
  rw [h, ← hp, ← hq, formatX_eq_formatXK, formatXK_fields]

theorem opcodeRowsFlow_faithful : ∀ r ∈ opcodeRowsFlow, r.Faithful := by
  simp only [opcodeRowsFlow, List.forall_mem_cons]
  exact ⟨faithful_fixed rfl, faithful_fixed rfl, faithful_address 0x0 fun _ => rfl, faithful_address 0x1 fun _ => rfl,
    faithful_address 0x2 fun _ => rfl, faithful_registerByte 0x3 fun _ _ => rfl, faithful_registerByte 0x4 fun _ _ => rfl,
    faithful_registers 0x5 0x0 fun _ _ => rfl, faithful_registerByte 0x6 fun _ _ => rfl,
    faithful_registerByte 0x7 fun _ _ => rfl, nofun⟩

theorem opcodeRowsAlu_faithful : ∀ r ∈ opcodeRowsAlu, r.Faithful := by
  simp only [opcodeRowsAlu, List.forall_mem_cons]
  exact ⟨faithful_registers 0x8 0x0 fun _ _ => rfl, faithful_registers 0x8 0x1 fun _ _ => rfl,
    faithful_registers 0x8 0x2 fun _ _ => rfl, faithful_registers 0x8 0x3 fun _ _ => rfl,
    faithful_registers 0x8 0x4 fun _ _ => rfl, faithful_registers 0x8 0x5 fun _ _ => rfl,
    faithful_registers 0x8 0x6 fun _ _ => rfl, faithful_registers 0x8 0x7 fun _ _ => rfl,
    faithful_registers 0x8 0xE fun _ _ => rfl, faithful_registers 0x9 0x0 fun _ _ => rfl, nofun⟩

theorem opcodeRowsHigh_faithful : ∀ r ∈ opcodeRowsHigh, r.Faithful := by
  simp only [opcodeRowsHigh, List.forall_mem_cons]
  exact ⟨faithful_address 0xA fun _ => rfl, faithful_address 0xB fun _ => rfl, faithful_registerByte 0xC fun _ _ => rfl,
    faithful_sprite 0xD fun _ _ _ => rfl, faithful_register 0xE 0x9 0xE fun _ => rfl, faithful_register 0xE 0xA 0x1 fun _ => rfl,
    faithful_register 0xF 0x0 0x7 fun _ => rfl, faithful_register 0xF 0x0 0xA fun _ => rfl,
    faithful_register 0xF 0x1 0x5 fun _ => rfl, faithful_register 0xF 0x1 0x8 fun _ => rfl,
    faithful_register 0xF 0x1 0xE fun _ => rfl, faithful_register 0xF 0x2 0x9 fun _ => rfl,
    faithful_register 0xF 0x3 0x3 fun _ => rfl, faithful_register 0xF 0x5 0x5 fun _ => rfl,
    faithful_register 0xF 0x6 0x5 fun _ => rfl, nofun⟩

theorem opcodeTable_faithful : ∀ r ∈ opcodeTable, r.Faithful :=
  List.forall_mem_append.mpr
    ⟨List.forall_mem_append.mpr ⟨opcodeRowsFlow_faithful, opcodeRowsAlu_faithful⟩, opcodeRowsHigh_faithful⟩

/-- A word that resolves was matched by a row, which read the answer from it. -/
theorem resolve_eq_ok {w : Word} {i : Instr} (h : resolve w = .ok i) : ∃ r ∈ opcodeTable, r.hits w = true ∧ r.read w = i := by
  rw [resolve] at h
  split at h
  next r hr => exact ⟨r, List.mem_of_find?_eq_some hr, List.find?_some (p := fun r : OpcodeRow => r.hits w) hr, Except.ok.inj h⟩
  next => cases h

theorem encode_of_resolve {w : Word} {i : Instr} (h : resolve w = .ok i) : encode i = w := by
  obtain ⟨r, hr, hw, rfl⟩ := resolve_eq_ok h
  exact opcodeTable_faithful r hr w hw

/-- What the decoder answers is well formed: it answers `SYS` on neither word of the two entries before it (R68). -/
theorem wf_of_resolve {w : Word} {i : Instr} (h : resolve w = .ok i) : i.wf = true := by
  have hw : encode i = w := encode_of_resolve h
  cases i with
  | sys nnn =>
    refine wf_sys_iff.mpr ⟨?_, ?_⟩
    all_goals
      rintro rfl
      subst hw
      revert h
      decide
  | _ => rfl

/-- Settles O2: no row drops a bit of a word it matches, and `SYS` is answered only where `CLS` and `RET` are not. -/
theorem encodeOfResolveIsTheWord : Obligations.EncodeOfResolveIsTheWord := fun _ _ h =>
  ⟨wf_of_resolve h, encode_of_resolve h⟩

/-! ### The illegal words (R70) -/

theorem resolves_to_nothing_iff {w : Word} : (∀ i, resolve w ≠ .ok i) ↔ ∀ r ∈ opcodeTable, ¬r.hits w = true := by
  rw [← List.find?_eq_none, resolve]
  cases opcodeTable.find? fun r => r.hits w with
  | none => simp
  | some r => simp

/-- The opcode nibbles all of whose words are legal: each has a row of mask F000. -/
def wholeOpcodes : List Nibble := [0x0, 0x1, 0x2, 0x3, 0x4, 0x6, 0x7, 0xA, 0xB, 0xC, 0xD]

theorem row_of_wholeOpcode : ∀ p ∈ wholeOpcodes, ∃ f, ⟨formatXY 0xF 0 0 0, formatXY p 0 0 0, f⟩ ∈ opcodeTable := by
  simp only [wholeOpcodes, List.forall_mem_cons]
  exact ⟨⟨_, List.mem_of_getElem? (i := 2) rfl⟩, ⟨_, List.mem_of_getElem? (i := 3) rfl⟩, ⟨_, List.mem_of_getElem? (i := 4) rfl⟩,
    ⟨_, List.mem_of_getElem? (i := 5) rfl⟩, ⟨_, List.mem_of_getElem? (i := 6) rfl⟩, ⟨_, List.mem_of_getElem? (i := 8) rfl⟩,
    ⟨_, List.mem_of_getElem? (i := 9) rfl⟩, ⟨_, List.mem_of_getElem? (i := 20) rfl⟩, ⟨_, List.mem_of_getElem? (i := 21) rfl⟩,
    ⟨_, List.mem_of_getElem? (i := 22) rfl⟩, ⟨_, List.mem_of_getElem? (i := 23) rfl⟩, nofun⟩

theorem wholeOpcode_iff : ∀ p : Nibble, p ∈ wholeOpcodes ↔ p ≠ 0x5 ∧ p ≠ 0x8 ∧ p ≠ 0x9 ∧ p ≠ 0xE ∧ p ≠ 0xF := by decide

/-- Settles O4: by the opcode nibble. Five of them leave the row to the last nibble or to the low byte; each of the others has
one row for all its words. -/
theorem illegalWordsAreTheFiveGroups : Obligations.IllegalWordsAreTheFiveGroups := by
  intro w
  rw [resolves_to_nothing_iff]
  by_cases hwhole : w.extractLsb' 12 4 ∈ wholeOpcodes
  · obtain ⟨f, hf⟩ := row_of_wholeOpcode _ hwhole
    obtain ⟨h5, h8, h9, hE, hF⟩ := (wholeOpcode_iff _).mp hwhole
    refine iff_of_false (fun hnone => hnone _ hf (hits_opcode_iff.mpr rfl)) ?_
    simp only [h5, h8, h9, hE, hF, false_and, or_self, not_false_eq_true]
  · simp only [wholeOpcode_iff, not_and_or, not_not] at hwhole
    -- The 35 rows become conditions on the nibbles of `w`, of which each opcode nibble leaves its own.
    simp [opcodeTable, opcodeRowsFlow, opcodeRowsAlu, opcodeRowsHigh, hits_iff_nibbles, kkOf_eq_iff, kept_nibble, xOf, yOf, nOf]
    rcases hwhole with h | h | h | h | h <;> simp [h]
    -- Opcode nibble 8: the last nibbles without a row are those listed.
    generalize w.extractLsb' 0 4 = n
    revert n
    decide

/-- Settles O5: the scan of the table on each of the eight words. -/
theorem sampleWordsDecode : Obligations.SampleWordsDecode := by
  unfold Obligations.SampleWordsDecode
  decide

end Sys2Proof
end

section
/-! Checked writes to memory, and the host's ports made of them (spec/20_memory.md R42, spec/10_state.md R29, spec/70_reset_and_hazards.md
R236): a run of bytes in a legal range reads back and leaves every other address, and so do the values of a load and of the boot. -/

namespace Sys2Proof.Machine

/-! ### A run of bytes in a legal range, which may be empty (R42) -/

/-- A run in a legal range is empty or ends inside memory. -/
theorem fits_of_inRange {addr : Nat} {bs : List Byte} (hr : inRange addr bs.length) : bs = [] ∨ addr + bs.length ≤ 0x1000 := by
  cases bs with
  | nil => exact .inl rfl
  | cons b bs => exact .inr (Nat.succ_le_succ (inRange_succ_iff.mp hr))

section
variable {m : Memory} {addr : Nat} {bs : List Byte} (hm : m.wf) (hr : inRange addr bs.length)
include hm hr

/-- The bytes of the run read back in order. -/
theorem getElem?_eq_readByte_putBytes {k : Nat} (hk : k < bs.length) : bs[k]? = some (readByte (putBytes m addr bs) (addr + k)) := by
  have hfit : addr + bs.length ≤ 0x1000 := (fits_of_inRange hr).resolve_left (List.ne_nil_of_length_pos (Nat.zero_lt_of_lt hk))
  rw [readByte_putBytes_getElem hm hfit hk, List.getElem?_eq_getElem hk]

/-- The run leaves every other byte. -/
theorem readByte_putBytes_of_not_within {a : Nat} (ha : ¬Within a (addr, bs.length)) :
    readByte (putBytes m addr bs) a = readByte m a := by
  have hout : ¬(addr ≤ a ∧ a < addr + bs.length) := ha
  rw [readByte_putBytes hm (fits_of_inRange hr), dif_neg (by omega)]

end

/-- Settles O20: the bounds check comes first, on the whole range; the run of bytes it lets through is kept in order (R42). -/
theorem memWriteStoresExactlyItsBytes : Obligations.MemWriteStoresExactlyItsBytes := by
  intro m addr bs hm
  refine ⟨fun hout => checked_error (not_inRange_iff.mpr hout), fun hin => ?_⟩
  exact ⟨putBytes m addr bs, checked_ok hin, putBytes_wf hm (fits_of_inRange hin),
    fun k hk => getElem?_eq_readByte_putBytes hm hin hk, fun a ha => readByte_putBytes_of_not_within hm hin ha⟩

/-! ### The load port (R29) -/

theorem load_of_not_inRange {values : List Nat} {addr : Nat} (hr : ¬inRange addr values.length) (s : State) :
    load values addr s = .error (.outOfRangeAccess (max addr 0x1000) .write) := by
  rw [← List.length_map (BitVec.ofNat 8)] at hr
  rw [load, writeBlock, checked_error hr]

/-- What memory `m` holds after `values` were loaded at `addr` over `old`: each of them modulo 256, and every other byte as it was. -/
def Loaded (values : List Nat) (addr : Nat) (old m : Memory) : Prop :=
  (∀ k v, values[k]? = some v → (readByte m (addr + k)).toNat = v % 256) ∧
    ∀ a, ¬Within a (addr, values.length) → readByte m a = readByte old a

/-- A load in a legal range succeeds, keeps the canonical form and changes memory alone. -/
theorem load_of_inRange {values : List Nat} {addr : Nat} {s : State} (hm : s.mem.wf) (hr : inRange addr values.length) :
    ∃ m : Memory, load values addr s = .ok (s.setMem m) ∧ m.wf ∧ Loaded values addr s.mem m := by
  have hlen : (values.map fun n => BitVec.ofNat 8 n).length = values.length := List.length_map _
  rw [← hlen] at hr
  refine ⟨_, by rw [load, writeBlock, checked_ok hr], putBytes_wf hm (fits_of_inRange hr), fun k v hk => ?_, fun a ha => ?_⟩
  · have hbyte : (values.map fun n => BitVec.ofNat 8 n)[k]? = some (BitVec.ofNat 8 v) := by rw [List.getElem?_map, hk]; rfl
    have hread := getElem?_eq_readByte_putBytes hm hr (List.getElem?_eq_some_iff.mp hbyte).1
    rw [← Option.some.inj (hbyte.symm.trans hread), BitVec.toNat_ofNat]
  · exact readByte_putBytes_of_not_within hm hr (by rwa [hlen])

/-- Settles O59: a load is a checked write of the masked values. -/
theorem loadPortMasksAndChecks : Obligations.LoadPortMasksAndChecks := by
  intro values addr s hm
  refine ⟨fun hpos hout => load_of_not_inRange (not_inRange_iff.mpr ⟨hpos, hout⟩) s, fun hin => ?_⟩
  obtain ⟨m, hload, _, hread, hrest⟩ := load_of_inRange hm hin
  exact ⟨_, hload, rfl, hread, hrest⟩

/-! ### The boot sequence (R236) -/

theorem boot_of_loads {program : List Nat} {s : State} {m m' : Memory} (hfont : load font s.params.fontBase s = .ok (s.setMem m))
    (hprogram : load program s.params.progBase (s.setMem m) = .ok ((s.setMem m).setMem m')) :
    boot program s = .ok (setPcPort s.params.progBase ((s.setMem m).setMem m')) := by
  simp only [boot, hfont, State.setMem_params, hprogram]

theorem font_length : font.length = 80 := rfl

/-- Settles O60: the font ends below PROG_BASE, so that neither load touches the other's bytes, and what lies outside both is the
reset memory, all 0x00. -/
theorem bootPlacesFontAndProgram : Obligations.BootPlacesFontAndProgram := by
  intro program hlen
  obtain ⟨m, hfont, hm, hfontBytes, hfontRest⟩ :=
    load_of_inRange (values := font) (addr := 0x000) (s := State.reset) (by decide) (.inr (by decide))
  obtain ⟨m', hprogram, _, hprogramBytes, hprogramRest⟩ :=
    load_of_inRange (values := program) (addr := 0x200) (s := State.reset.setMem m) hm (by show _ ∨ _; omega)
  refine ⟨_, boot_of_loads hfont hprogram, rfl, fun a => ?_⟩
  show (readByte m' a).toNat = _
  have hzero : readByte State.reset.mem a = 0 := rfl
  have hfontOut (h : 80 ≤ a) : readByte m a = 0 := (hfontRest a fun hw => by
    have : a < 0 + font.length := hw.2
    rw [font_length] at this
    omega).trans hzero
  have hprogramOut (h : a < 0x200 ∨ 0x200 + program.length ≤ a) : readByte m' a = readByte m a :=
    hprogramRest a fun ⟨hlo, hhi⟩ => by
      have : 0x200 ≤ a := hlo
      have : a < 0x200 + program.length := hhi
      omega
  by_cases hlow : a < 80
  · have hget : font[a]? = some (font[a]'(by rwa [font_length])) := List.getElem?_eq_getElem _
    rw [if_pos hlow, hprogramOut (by omega), hget, Option.getD_some, ← hfontBytes a _ hget, Nat.zero_add]
  · rw [if_neg hlow]
    by_cases hhigh : 0x200 ≤ a
    · rw [if_pos hhigh]
      cases hget : program[a - 0x200]? with
      | some v =>
        rw [Option.getD_some, ← hprogramBytes _ v hget, Nat.add_sub_cancel' hhigh]
      | none =>
        rw [List.getElem?_eq_none_iff] at hget
        rw [hprogramOut (by omega), hfontOut (by omega)]
        rfl
    · rw [if_neg hhigh, hprogramOut (by omega), hfontOut (by omega)]
      rfl

end Sys2Proof.Machine
end

section
/-! What an instruction can do, in two equations: where the conditions of its rule hold it answers the state `result`, and elsewhere
it raises a fault in the state it was given. The frames over the whole instruction set (R13, R14, R16 to R22), the invariant and
the bound on PC are read off `result`, instruction by instruction. -/

namespace Sys2Proof.Machine

/-! ### The two ways an instruction ends -/

/-- The condition under which an instruction raises no fault (R40, R47, R48, R81). -/
def Runs (s : State) : Instr → Prop
  | .sys _ => s.params.sysFaults = false
  | .ret => s.sp ≠ 0 ∧ inRange (stackEntry s (s.sp - 1)) 2
  | .call _ => s.sp ≠ 16 ∧ inRange (stackEntry s s.sp) 2
  | .ldB _ => inRange s.i.toNat 3
  | .ldMemVx x | .ldVxMem x => inRange s.i.toNat (x.toNat + 1)
  | .drw _ _ n => inRange s.i.toNat n.toNat
  | _ => True

/-- I after an instruction that moved `V[0]` to `V[x]` to or from memory (R140, R142). -/
def nextI (x : Nibble) (s : State) : Word :=
  if s.params.loadStoreIncrementsI then BitVec.ofNat 16 (s.i.toNat + x.toNat + 1) else s.i

/-- PC after a skip on `c` (R90). -/
def skipPc (c : Bool) (s : State) : Word := if c then s.pc + 2 else s.pc

/-- The state an instruction answers where it raises no fault: the old one with the fields that its rule names. -/
def result (s : State) : Instr → State
  | .cls => s.setFb blankFb true
  | .ret => (s.setStack s.mem (s.sp - 1)).setPc
      (readByte s.mem (stackEntry s (s.sp - 1)) ++ readByte s.mem (stackEntry s (s.sp - 1) + 1))
  | .sys _ => s
  | .jp nnn => s.setPc (addrOperand nnn)
  | .call nnn => (s.setStack (putBytes s.mem (stackEntry s s.sp) [highByte s.pc, lowByte s.pc]) (s.sp + 1)).setPc (addrOperand nnn)
  | .seByte x kk => s.setPc (skipPc (s.getV x == kk) s)
  | .sneByte x kk => s.setPc (skipPc (s.getV x != kk) s)
  | .seReg x y => s.setPc (skipPc (s.getV x == s.getV y) s)
  | .ldByte x kk => s.setV x kk
  | .addByte x kk => s.setV x (sumByte (s.getV x) kk)
  | .ldReg x y => s.setV x (s.getV y)
  | .orReg x y => { s with v := (s.setLogic x (s.getV x ||| s.getV y)).v }
  | .andReg x y => { s with v := (s.setLogic x (s.getV x &&& s.getV y)).v }
  | .xorReg x y => { s with v := (s.setLogic x (s.getV x ^^^ s.getV y)).v }
  | .addReg x y => s.setResultFlag x (sumByte (s.getV x) (s.getV y)) (carryFlag (s.getV x) (s.getV y))
  | .subReg x y => s.setResultFlag x (diffByte (s.getV x) (s.getV y)) (noBorrowFlag (s.getV x) (s.getV y))
  | .shr x _ => s.setResultFlag x (shiftRightByte (s.getV x)) (bitZeroFlag (s.getV x))
  | .subnReg x y => s.setResultFlag x (diffByte (s.getV y) (s.getV x)) (noBorrowFlag (s.getV y) (s.getV x))
  | .shl x _ => s.setResultFlag x (shiftLeftByte (s.getV x)) (bitSevenFlag (s.getV x))
  | .sneReg x y => s.setPc (skipPc (s.getV x != s.getV y) s)
  | .ldI nnn => s.setI (addrOperand nnn)
  | .jpV0 nnn => s.setPc (indexedTarget nnn s)
  | .rnd x kk => (s.setV x (Config.draw8 s.draws &&& kk)).nextDraw
  | .drw x y n => drawAt (bytesAt s.mem s.i.toNat n.toNat) (s.getV x).toNat (s.getV y).toNat s
  | .skp x => (s.setPc (skipPc (keyIsDown x s) s)).nextDraw
  | .sknp x => (s.setPc (skipPc (!keyIsDown x s) s)).nextDraw
  | .ldVxDt x => s.setV x s.dt
  | .ldVxK x => s.setRun (.waitKey x)
  | .ldDtVx x => s.setDt (s.getV x)
  | .ldStVx x => s.setSt (s.getV x)
  | .addI x => s.setI (indexSum x s)
  | .ldF x => s.setI (glyphAddr x s)
  | .ldB x => s.setMem (putBytes s.mem s.i.toNat (bcdDigits (s.getV x)))
  | .ldMemVx x => (s.setMem (putBytes s.mem s.i.toNat (firstRegs s (x.toNat + 1)))).setI (nextI x s)
  | .ldVxMem x => { s with v := (putRegs s 0 (bytesAt s.mem s.i.toNat (x.toNat + 1))).v, i := nextI x s }

theorem incrementI_putRegs (x : Nibble) (s : State) (k : Nat) (bs : List Byte) :
    incrementI x (putRegs s k bs) = { s with v := (putRegs s k bs).v, i := nextI x s } := by
  rw [incrementI_eq, putRegs_eq]
  rfl

/-- An address outside memory is a record a Step can raise (R192). -/
theorem byStep_outOfRange (addr : Nat) (op : Access) : (FaultRecord.outOfRangeAccess (max addr 0x1000) op).byStep = true :=
  decide_eq_true (Nat.le_max_right _ _)

/-- An instruction whose condition holds answers `result`; any other raises a fault that a Step can raise, and changes nothing
else (R198). -/
theorem exec_runs_or_raises (i : Instr) (s : State) :
    (Runs s i ∧ exec i s = .next (result s i)) ∨
    (¬Runs s i ∧ ∃ f : FaultRecord, f.byStep = true ∧ exec i s = .next (raise f s)) := by
  cases i with
  | sys nnn =>
    rcases exec_sys_cases nnn s with ⟨hf, h⟩ | ⟨hf, h⟩
    · exact .inr ⟨by simp [Runs, hf], _, rfl, h⟩
    · exact .inl ⟨hf, h⟩
  | ret =>
    rcases exec_ret_cases s with ⟨hsp, h⟩ | ⟨_, hr, h⟩ | ⟨hsp, hr, h⟩
    · exact .inr ⟨fun hrun => hrun.1 hsp, _, rfl, h⟩
    · exact .inr ⟨fun hrun => hr hrun.2, _, byStep_outOfRange _ _, h⟩
    · exact .inl ⟨⟨hsp, hr⟩, h⟩
  | call nnn =>
    rcases exec_call_cases nnn s with ⟨hsp, h⟩ | ⟨_, hr, h⟩ | ⟨hsp, hr, h⟩
    · exact .inr ⟨fun hrun => hrun.1 hsp, _, rfl, h⟩
    · exact .inr ⟨fun hrun => hr hrun.2, _, byStep_outOfRange _ _, h⟩
    · exact .inl ⟨⟨hsp, hr⟩, h⟩
  | ldB x =>
    rcases exec_ldB_cases x s with ⟨hr, h⟩ | ⟨hr, h⟩
    · exact .inl ⟨hr, h⟩
    · exact .inr ⟨hr, _, byStep_outOfRange _ _, h⟩
  | ldMemVx x =>
    rcases exec_ldMemVx_cases x s with ⟨hr, h⟩ | ⟨hr, h⟩
    · exact .inl ⟨hr, h.trans (congrArg _ (incrementI_eq x _))⟩
    · exact .inr ⟨hr, _, byStep_outOfRange _ _, h⟩
  | ldVxMem x =>
    rcases exec_ldVxMem_cases x s with ⟨hr, h⟩ | ⟨hr, h⟩
    · exact .inl ⟨hr, h.trans (congrArg _ (incrementI_putRegs x s 0 _))⟩
    · exact .inr ⟨hr, _, byStep_outOfRange _ _, h⟩
  | drw x y n =>
    rcases exec_drw_cases x y n s with ⟨hr, h⟩ | ⟨hr, h⟩
    · exact .inl ⟨hr, h⟩
    · exact .inr ⟨hr, _, byStep_outOfRange _ _, h⟩
  | seByte | sneByte | seReg | sneReg => exact .inl ⟨trivial, congrArg Host.Outcome.next (skipIf_eq _ s)⟩
  | skp | sknp => exact .inl ⟨trivial, congrArg (fun t : State => Host.Outcome.next t.nextDraw) (skipIf_eq _ s)⟩
  | orReg | andReg | xorReg => exact .inl ⟨trivial, congrArg Host.Outcome.next (setLogic_eq s _ _)⟩
  | _ => exact .inl ⟨trivial, rfl⟩

/-- What the next state of an instruction can be: its `result`, or the old state with a fault raised. -/
theorem exec_eq_next {i : Instr} {s t : State} (h : exec i s = .next t) :
    (Runs s i ∧ t = result s i) ∨ ∃ f : FaultRecord, f.byStep = true ∧ t = raise f s := by
  rcases exec_runs_or_raises i s with ⟨hr, he⟩ | ⟨_, f, hf, he⟩
  · exact .inl ⟨hr, by cases h.symm.trans he; rfl⟩
  · exact .inr ⟨f, hf, by cases h.symm.trans he; rfl⟩

/-! ### Frames: the fields that a result shares with the old state -/

theorem result_params (s : State) (i : Instr) : (result s i).params = s.params := by
  cases i <;> rfl

theorem result_fault (s : State) (i : Instr) : (result s i).fault = s.fault := by
  cases i <;> rfl

theorem result_pc {i : Instr} (hw : writesPc i = false) (s : State) : (result s i).pc = s.pc := by
  cases i with
  | ret | jp | call | jpV0 | seByte | sneByte | seReg | sneReg | skp | sknp => cases hw
  | _ => rfl

theorem result_sp {i : Instr} (hret : i ≠ .ret) (hcall : ∀ nnn, i ≠ .call nnn) (s : State) : (result s i).sp = s.sp := by
  cases i with
  | ret => exact absurd rfl hret
  | call nnn => exact absurd rfl (hcall nnn)
  | _ => rfl

theorem result_run {i : Instr} (hwait : ∀ x, i ≠ .ldVxK x) (s : State) : (result s i).run = s.run := by
  cases i with
  | ldVxK x => exact absurd rfl (hwait x)
  | _ => rfl

/-- What a result does to memory: it stores a run of bytes that fills the instruction's legal range, which is empty for all but
`CALL`, `LD B` and `LD [I]` (R45). -/
theorem result_mem {s : State} {i : Instr} (hr : Runs s i) : ∃ bs : List Byte, bs.length = (storedRange s i).2 ∧
    inRange (storedRange s i).1 bs.length ∧ (result s i).mem = putBytes s.mem (storedRange s i).1 bs := by
  cases i with
  | call nnn => exact ⟨[highByte s.pc, lowByte s.pc], rfl, hr.2, rfl⟩
  | ldB x => exact ⟨bcdDigits (s.getV x), rfl, hr, rfl⟩
  | ldMemVx x =>
    have hlen : (firstRegs s (x.toNat + 1)).length = x.toNat + 1 := firstRegs_length s _
    exact ⟨firstRegs s (x.toNat + 1), hlen, hlen.symm ▸ hr, rfl⟩
  | _ => exact ⟨[], rfl, .inl rfl, rfl⟩

/-- Settles O27: by the register update that the result ends in; a fault writes no register. -/
theorem onlyDestinationRegistersChange : Obligations.OnlyDestinationRegistersChange := by
  intro i s t r h hw
  rcases exec_eq_next h with ⟨_, rfl⟩ | ⟨f, _, rfl⟩
  · cases i with
    | ldByte x | addByte x | ldReg x | ldVxDt x | rnd x =>
      exact (getV_setV s x r _).trans (if_neg (beq_eq_false_iff_ne.mp hw))
    | orReg x | andReg x | xorReg x =>
      obtain ⟨hx, hvf⟩ : ¬r = x ∧ ¬(s.params.logicResetsVf = true ∧ r = 15) := by simpa [writesReg] using hw
      exact (getV_setLogic s x r _).trans (by rw [if_neg hvf, if_neg hx])
    | addReg x | subReg x | subnReg x | shr x | shl x =>
      obtain ⟨hx, hvf⟩ : ¬r = x ∧ ¬r = 15 := by simpa [writesReg] using hw
      exact (getV_setResultFlag s x r _ _).trans (by rw [if_neg hvf, if_neg hx])
    | drw => exact (getV_setV _ 15 r _).trans (if_neg (beq_eq_false_iff_ne.mp hw))
    | ldVxMem x =>
      have hx : ¬r.toNat < x.toNat + 1 := fun hlt => of_decide_eq_false hw (Nat.le_of_lt_succ hlt)
      exact (getV_putRegs_bytesAt s s.mem s.i.toNat x.isLt r).trans (if_neg hx)
    | _ => rfl
  · rfl

/-- Settles O28: a result that writes I is one of the five that `writesI` names, two of them under the parameter alone. -/
theorem onlyIndexInstructionsWriteI : Obligations.OnlyIndexInstructionsWriteI := by
  intro i s t h hw
  rcases exec_eq_next h with ⟨_, rfl⟩ | ⟨f, _, rfl⟩
  · cases i with
    | ldI | addI | ldF => cases hw
    | ldMemVx x | ldVxMem x => exact if_neg (Bool.eq_false_iff.mp hw)
    | _ => rfl
  · rfl

/-- Settles O29: the run of bytes that a result stores leaves every byte outside its range; a fault stores none. -/
theorem onlyStoredBytesChange : Obligations.OnlyStoredBytesChange := by
  intro i s t a hm h ha
  rcases exec_eq_next h with ⟨hr, rfl⟩ | ⟨f, _, rfl⟩
  · obtain ⟨bs, hlen, hin, hmem⟩ := result_mem hr
    rw [hmem]
    refine readByte_putBytes_of_not_within hm hin ?_
    rwa [hlen]
  · rfl

/-- Settles O30: no result but those of `CLS` and `DRW` writes either field, and no fault does. -/
theorem onlyDisplayInstructionsWriteTheFramebuffer : Obligations.OnlyDisplayInstructionsWriteTheFramebuffer := by
  intro i s t h hcls hdrw
  rcases exec_eq_next h with ⟨_, rfl⟩ | ⟨f, _, rfl⟩
  · cases i with
    | cls => exact absurd rfl hcls
    | drw x y n => exact absurd rfl (hdrw x y n)
    | _ => exact ⟨rfl, rfl⟩
  · exact ⟨rfl, rfl⟩

/-- Settles O31: a fault leaves PC too. -/
theorem onlyTransfersAndSkipsWritePc : Obligations.OnlyTransfersAndSkipsWritePc := by
  intro i s t h hw
  rcases exec_eq_next h with ⟨_, rfl⟩ | ⟨f, _, rfl⟩
  · exact result_pc hw s
  · rfl

/-- Settles O32: DT and ST have their one writer each, and the last four fields none. -/
theorem timersDepthAndToneHaveFewWriters : Obligations.TimersDepthAndToneHaveFewWriters := by
  intro i s t h
  rcases exec_eq_next h with ⟨_, rfl⟩ | ⟨f, _, rfl⟩
  · refine ⟨fun hret hcall => result_sp hret hcall s, ?_⟩
    cases i with
    | ldDtVx x => exact ⟨fun hdt => absurd rfl (hdt x), fun _ => rfl, rfl, rfl, rfl, rfl⟩
    | ldStVx x => exact ⟨fun _ => rfl, fun hst => absurd rfl (hst x), rfl, rfl, rfl, rfl⟩
    | _ => exact ⟨fun _ => rfl, fun _ => rfl, rfl, rfl, rfl, rfl⟩
  · exact ⟨fun _ _ => rfl, fun _ => rfl, fun _ => rfl, rfl, rfl, rfl, rfl⟩

/-- Settles O33: a fault is the second case, `LD Vx, K` the third, every other result the first. -/
theorem runAndFaultChangeOnlyByFaultOrKeyWait : Obligations.RunAndFaultChangeOnlyByFaultOrKeyWait := by
  intro i s t h
  rcases exec_eq_next h with ⟨_, rfl⟩ | ⟨f, _, rfl⟩
  · cases i with
    | ldVxK x => exact .inr (.inr ⟨x, rfl, rfl⟩)
    | _ => exact .inl ⟨rfl, rfl⟩
  · exact .inr (.inl ⟨f, rfl⟩)

/-! ### What is never read (R203, R25) -/

/-- The fields that an instruction may read or that a program can observe agree. -/
def SameData (s u : State) : Prop :=
  u.v = s.v ∧ u.i = s.i ∧ u.pc = s.pc ∧ u.dt = s.dt ∧ u.sp = s.sp ∧ u.mem = s.mem ∧ u.fb = s.fb ∧ u.draws = s.draws

/-- The registers that a run of bytes leaves depend on the registers alone. -/
theorem putRegs_v_congr {s u : State} (h : u.v = s.v) (k : Nat) (bs : List Byte) : (putRegs u k bs).v = (putRegs s k bs).v := by
  induction bs generalizing s u k with
  | nil => exact h
  | cons b bs ih =>
    refine ih ?_ (k + 1)
    rw [State.setV_v, State.setV_v, h]

/-- So do those that a logic instruction leaves, under the same parameters. -/
theorem setLogic_v_congr {s u : State} (h : u.v = s.v) (hp : u.params = s.params) (x : Nibble) (b : Byte) :
    (u.setLogic x b).v = (s.setLogic x b).v := by
  rw [State.setLogic, State.setLogic, hp]
  split <;> simp only [State.setV_v, h]

section
variable (s : State) (st : Byte) (acc : Nat) (tone : Bool) (run : RunState) (fault : Option FaultRecord) (dirty : Bool) (elapsed : Nat)

/-- The state with other values in the fields that no instruction reads. -/
def withHidden : State :=
  { s with st := st, acc := acc, tone := tone, run := run, fault := fault, dirty := dirty, elapsed := elapsed }

theorem runs_withHidden_iff (i : Instr) : Runs (withHidden s st acc tone run fault dirty elapsed) i ↔ Runs s i := by
  cases i <;> exact Iff.rfl

theorem sameData_result_withHidden (i : Instr) :
    SameData (result s i) (result (withHidden s st acc tone run fault dirty elapsed) i) := by
  have hv : (withHidden s st acc tone run fault dirty elapsed).v = s.v := rfl
  cases i with
  | orReg | andReg | xorReg => exact ⟨setLogic_v_congr hv rfl _ _, rfl, rfl, rfl, rfl, rfl, rfl, rfl⟩
  | ldVxMem x => exact ⟨putRegs_v_congr hv 0 _, rfl, rfl, rfl, rfl, rfl, rfl, rfl⟩
  | _ => exact ⟨rfl, rfl, rfl, rfl, rfl, rfl, rfl, rfl⟩

end

/-- Settles O34: the condition of an instruction and every field of its result but the hidden ones are given by the fields that
are not hidden; a fault changes hidden fields only. -/
theorem hiddenStateIsNeverReadAsData : Obligations.HiddenStateIsNeverReadAsData := by
  intro i s u hu
  have hu : u = withHidden s u.st u.acc u.tone u.run u.fault u.dirty u.elapsed := hu
  have hruns := runs_withHidden_iff s u.st u.acc u.tone u.run u.fault u.dirty u.elapsed i
  have hsame := sameData_result_withHidden s u.st u.acc u.tone u.run u.fault u.dirty u.elapsed i
  rw [← hu] at hruns hsame
  rcases exec_runs_or_raises i s with ⟨hs, hes⟩ | ⟨hs, f, _, hes⟩
  · rcases exec_runs_or_raises i u with ⟨_, heu⟩ | ⟨hnot, _⟩
    · exact ⟨_, _, hes, heu, hsame⟩
    · exact absurd (hruns.mpr hs) hnot
  · rcases exec_runs_or_raises i u with ⟨hrun, _⟩ | ⟨_, g, _, heu⟩
    · exact absurd (hruns.mp hrun) hs
    · refine ⟨_, _, hes, heu, ?_⟩
      rw [hu]
      exact ⟨rfl, rfl, rfl, rfl, rfl, rfl, rfl, rfl⟩

end Sys2Proof.Machine
end

section
/-! What every step keeps: the invariant (R18, R19, R23) and the parameters (R30); and the bound on PC (R16). Each is shown of an
instruction's `result` and of a fault, carried through the Step, and kept by the accumulation of time and by a key. -/

namespace Sys2Proof.Machine

/-! ### The invariant at reset (R230) -/

theorem memory_nil_wf : Memory.wf [] := ⟨.nil, nofun⟩

/-- A state without a fault that is not halted meets the invariant if memory and SP do. -/
theorem inv_of_no_fault {s : State} (hm : s.mem.wf) (hsp : s.sp ≤ 16) (hrun : s.run ≠ .halted) (hfault : s.fault = none) : s.Inv where
  memory := hm
  depth := hsp
  halt := iff_of_false hrun (by rw [hfault]; decide)
  record := by rw [hfault]; nofun

theorem State.Inv.fault_eq_none {s : State} (h : s.Inv) (hrun : s.run ≠ .halted) : s.fault = none := by
  rw [← Option.not_isSome_iff_eq_none, ← h.halt]
  exact hrun

/-- Settles O24: reset has empty memory and stack, and no fault. -/
theorem resetSatisfiesTheInvariant : Obligations.ResetSatisfiesTheInvariant :=
  ⟨inv_of_no_fault memory_nil_wf (Nat.zero_le _) nofun rfl, fun _ => inv_of_no_fault memory_nil_wf (Nat.zero_le _) nofun rfl⟩

theorem getV_reset (r : Nibble) : State.reset.getV r = 0 := Vector.getElem_replicate r.isLt

/-- Settles O23: the reset of a core has every field of the reset state but the two that it keeps. -/
theorem resetLeavesAllZero : Obligations.ResetLeavesAllZero := by
  refine ⟨fun s => ⟨rfl, rfl⟩, fun t ht => ?_⟩
  rcases ht with rfl | ⟨s, rfl⟩
  all_goals exact ⟨getV_reset, rfl, rfl, rfl, rfl, rfl, rfl, rfl, rfl, fun _ => rfl, pixel_blankFb, rfl, rfl⟩

/-! ### The invariant over a step -/

/-- A fault that a Step can raise keeps the invariant: it fills FAULT as it halts. -/
theorem State.Inv.raise {s : State} {f : FaultRecord} (h : s.Inv) (hf : f.byStep = true) : (raise f s).Inv where
  memory := h.memory
  depth := h.depth
  halt := iff_of_true rfl rfl
  record := by
    intro g hg
    cases hg
    exact hf

/-- A push is refused at depth 16, so SP never passes it. -/
theorem result_sp_le {s : State} {i : Instr} (hr : Runs s i) (hsp : s.sp ≤ 16) : (result s i).sp ≤ 16 := by
  cases i with
  | ret => exact (Nat.sub_le _ _).trans hsp
  | call nnn => exact Nat.succ_le_of_lt (lt_of_le_of_ne hsp hr.1)
  | _ => exact hsp

theorem result_run_ne_halted {s : State} (hrun : s.run ≠ .halted) (i : Instr) : (result s i).run ≠ .halted := by
  cases i with
  | ldVxK x => nofun
  | _ => exact hrun

theorem result_inv {s : State} {i : Instr} (hr : Runs s i) (h : s.Inv) (hrun : s.run ≠ .halted) : (result s i).Inv := by
  refine inv_of_no_fault ?_ (result_sp_le hr h.depth) (result_run_ne_halted hrun i) ?_
  · obtain ⟨bs, _, hin, hmem⟩ := result_mem hr
    rw [hmem]
    exact putBytes_wf h.memory (fits_of_inRange hin)
  · rw [result_fault, h.fault_eq_none hrun]

/-- All that a Step can answer, by `result` and `raise`. -/
theorem coreStep_eq_next {s t : State} (h : coreStep s = .next t) :
    (∃ f : FaultRecord, f.byStep = true ∧ (t = raise f s ∨ t = raise f s.advance)) ∨
      ∃ i, Runs s.advance i ∧ t = result s.advance i ∧ inRange s.pc.toNat 2 ∧
        resolve (readByte s.mem s.pc.toNat ++ readByte s.mem (s.pc.toNat + 1)) = .ok i := by
  rcases coreStep_cases s with ⟨_, he⟩ | ⟨_, w, _, _, he⟩ | ⟨hr, i, hi, he⟩
  · exact .inl ⟨_, byStep_outOfRange _ _, .inl (Host.Outcome.next.inj (h.symm.trans he))⟩
  · exact .inl ⟨.unknownInstruction w, rfl, .inr (Host.Outcome.next.inj (h.symm.trans he))⟩
  · rcases exec_eq_next (he.symm.trans h) with ⟨hrun, ht⟩ | ⟨f, hf, ht⟩
    · exact .inr ⟨i, hrun, ht, hr, hi⟩
    · exact .inl ⟨f, hf, .inr ht⟩

theorem advance_inv {s : State} (h : s.Inv) : s.advance.Inv := ⟨h.memory, h.depth, h.halt, h.record⟩

theorem coreStep_inv {s t : State} (h : s.Inv) (hrun : s.run ≠ .halted) (ht : coreStep s = .next t) : t.Inv := by
  rcases coreStep_eq_next ht with ⟨f, hf, rfl | rfl⟩ | ⟨i, hr, rfl, _⟩
  · exact h.raise hf
  · exact (advance_inv h).raise hf
  · exact result_inv hr (advance_inv h) hrun

theorem accumulate_inv {s : State} (h : s.Inv) : (accumulate s).Inv := ⟨h.memory, h.depth, h.halt, h.record⟩

theorem finishTick_inv {s : State} (h : s.Inv) : (finishTick s).Inv := by
  by_cases hrun : s.run = .running
  · rw [finishTick_running hrun]
    exact accumulate_inv h
  · rwa [finishTick_of_ne hrun]

theorem keyPress_inv {s : State} (k : Nibble) (h : s.Inv) : (keyPress k s).Inv := by
  by_cases hwait : ∃ x, s.run = .waitKey x
  · obtain ⟨x, hx⟩ := hwait
    rw [keyPress_waiting k hx]
    exact accumulate_inv (inv_of_no_fault h.memory h.depth nofun (h.fault_eq_none (by rw [hx]; nofun)))
  · rwa [keyPress_of_ne k (not_exists.mp hwait)]

theorem waitTurn_inv {s : State} (e : Option Nibble) (h : s.Inv) : (waitTurn e s).Inv := by
  cases e with
  | none => exact h
  | some k => exact keyPress_inv k h

/-- Settles O25: by RUN, an EngineTick or a moment of waiting; HALTED has no next state. -/
theorem stepKeepsTheInvariant : Obligations.StepKeepsTheInvariant := by
  intro s t h ht
  rcases step_cases s with ⟨hrun, u, hu, he⟩ | ⟨x, hx, he⟩ | ⟨_, he⟩
  · cases ht.symm.trans he
    have hstart : State.Inv { hostTurn s with elapsed := Config.elapsed s.draws } := ⟨h.memory, h.depth, h.halt, h.record⟩
    exact finishTick_inv (coreStep_inv hstart (ne_of_eq_of_ne hrun (by decide)) hu)
  · cases ht.symm.trans he
    exact waitTurn_inv _ ⟨h.memory, h.depth, h.halt, h.record⟩
  · cases ht.symm.trans he

/-! ### The parameters (R30) -/

theorem coreStep_params {s t : State} (h : coreStep s = .next t) : t.params = s.params := by
  rcases coreStep_eq_next h with ⟨f, _, rfl | rfl⟩ | ⟨i, _, rfl, _⟩
  · rfl
  · rfl
  · rw [result_params, State.advance_params]

theorem finishTick_params (s : State) : (finishTick s).params = s.params := by
  by_cases hrun : s.run = .running
  · rw [finishTick_running hrun]
    rfl
  · rw [finishTick_of_ne hrun]

theorem keyPress_params (k : Nibble) (s : State) : (keyPress k s).params = s.params := by
  by_cases hwait : ∃ x, s.run = .waitKey x
  · obtain ⟨x, hx⟩ := hwait
    rw [keyPress_waiting k hx]
    rfl
  · rw [keyPress_of_ne k (not_exists.mp hwait)]

theorem waitTurn_params (e : Option Nibble) (s : State) : (waitTurn e s).params = s.params := by
  cases e with
  | none => rfl
  | some k => exact keyPress_params k s

/-- Settles O26: neither the Step, nor the accumulation after it, nor a key writes them. -/
theorem stepsNeverChangeParameters : Obligations.StepsNeverChangeParameters := by
  intro s t ht
  rcases step_cases s with ⟨_, u, hu, he⟩ | ⟨x, _, he⟩ | ⟨_, he⟩
  · cases ht.symm.trans he
    have hparams := coreStep_params hu
    exact (finishTick_params u).trans hparams
  · cases ht.symm.trans he
    exact waitTurn_params _ _
  · cases ht.symm.trans he

/-! ### The bound on PC (R16) -/

/-- An advance from inside memory does not wrap. -/
theorem toNat_add_two {w : Word} (h : w.toNat ≤ 0x1000) : (w + 2).toNat = w.toNat + 2 := by
  rw [BitVec.toNat_add]
  show (w.toNat + 2) % 65536 = _
  omega

theorem skipPc_toNat_le {s : State} (h : s.pc.toNat ≤ 0x1000) (c : Bool) : (skipPc c s).toNat ≤ 0x1002 := by
  rw [skipPc]
  split
  · rw [toNat_add_two h]
    omega
  · omega

/-- The largest PC an instruction other than `RET` leaves is that of `JP V0`: a 12-bit address and a byte. -/
theorem result_pc_le {s : State} {i : Instr} (h : s.pc.toNat ≤ 0x1000) (hret : i ≠ .ret) : (result s i).pc.toNat ≤ 0x10FE := by
  cases i with
  | ret => exact absurd rfl hret
  | jp nnn | call nnn =>
    have := nnn.isLt
    exact (addrOperand_toNat nnn).trans_le (by omega)
  | jpV0 nnn =>
    have := nnn.isLt
    have := (s.getV 0).isLt
    exact (indexedTarget_toNat nnn s).trans_le (by omega)
  | seByte | sneByte | seReg | sneReg | skp | sknp => exact (skipPc_toNat_le h _).trans (by decide)
  | _ => exact h.trans (by decide)

/-- Settles O12: the advanced PC is at most 0x1000; a fault keeps it or the PC before it, and of the instructions all but `RET`
stay below the bound. -/
theorem pcStaysBelowTheJumpBound : Obligations.PcStaysBelowTheJumpBound := by
  intro s t _ hpc hret ht
  have hadvance : s.advance.pc.toNat ≤ 0x1000 := by
    rw [State.advance_pc, toNat_add_two (by omega)]
    omega
  rcases coreStep_eq_next ht with ⟨f, _, rfl | rfl⟩ | ⟨i, _, rfl, _, hi⟩
  · exact hpc.trans (by decide)
  · exact hadvance.trans (by decide)
  · exact result_pc_le hadvance fun h => hret (h ▸ hi)

end Sys2Proof.Machine
end

section
/-! The step of the machine, by RUN (spec/30_encoding.md R72, spec/60_exceptions.md R200, R214), and its parts that wait or count: the
key wait (spec/44_timer_key.md R176, R177), the prescaler and the tone (spec/60_exceptions.md R212, R214). -/

namespace Sys2Proof.Machine

/-! ### One step, by RUN -/

theorem step_running {s : State} (h : s.run = .running) : step s = engineTick (Config.elapsed s.draws) (hostTurn s) := by
  rw [step, h]

theorem step_waiting {s : State} {x : Nibble} (h : s.run = .waitKey x) :
    step s = .next (waitTurn (Config.keyPress s.draws) (hostTurn s)) := by
  rw [step, h]

theorem step_halted {s : State} (h : s.run = .halted) : step s = .fault .halted := by
  rw [step, h]

/-- A step in RUNNING is a Step with the host's `elapsed` latched, then `finishTick`. -/
theorem step_of_coreStep {s t : State} (hrun : s.run = .running)
    (h : coreStep { hostTurn s with elapsed := Config.elapsed s.draws } = .next t) : step s = .next (finishTick t) :=
  (step_running hrun).trans (engineTick_of_coreStep h)

/-! ### The Step on a word that decodes, and on none -/

theorem resolve_of_decode {hi lo : Byte} {i : Instr} (h : decode [hi, lo] = .ok (i, [])) : resolve (hi ++ lo) = .ok i := by
  cases hres : resolve (hi ++ lo) with
  | ok j =>
    cases h.symm.trans (decode_of_resolve hres [])
    rfl
  | error e => simp only [decode, hres, reduceCtorEq] at h

theorem coreStep_of_resolve {s : State} {i : Instr} (hpc : s.pc.toNat ≤ 0xFFE)
    (h : resolve (readByte s.mem s.pc.toNat ++ readByte s.mem (s.pc.toNat + 1)) = .ok i) : coreStep s = exec i s.advance := by
  rcases coreStep_cases s with ⟨hr, _⟩ | ⟨_, w, rfl, hunknown, _⟩ | ⟨_, j, hj, he⟩
  · exact absurd (inRange_two_iff.mpr (Nat.succ_le_succ hpc)) hr
  · exact absurd h (hunknown i)
  · cases h.symm.trans hj
    exact he

theorem coreStep_of_pc_gt {s : State} (hpc : s.pc.toNat > 0xFFE) :
    coreStep s = .next (raise (.outOfRangeAccess (max s.pc.toNat 0x1000) .read) s) := by
  rcases coreStep_cases s with ⟨_, he⟩ | ⟨hr, _⟩ | ⟨hr, _⟩
  · exact he
  all_goals
    rw [inRange_two_iff] at hr
    omega

/-- A step on a word that resolves to `i` runs `i` with PC advanced, then `finishTick`. -/
theorem step_of_resolve {s : State} {i : Instr} (hrun : s.run = .running) (hpc : s.pc.toNat ≤ 0xFFE)
    (h : resolve (readByte s.mem s.pc.toNat ++ readByte s.mem (s.pc.toNat + 1)) = .ok i) :
    ∃ t, exec i { hostTurn s with elapsed := Config.elapsed s.draws, pc := s.pc + 2 } = .next t ∧ step s = .next (finishTick t) := by
  obtain ⟨t, ht⟩ := exec_answers_next i { hostTurn s with elapsed := Config.elapsed s.draws, pc := s.pc + 2 }
  have hcore : coreStep { hostTurn s with elapsed := Config.elapsed s.draws } = exec i
      { hostTurn s with elapsed := Config.elapsed s.draws, pc := s.pc + 2 } :=
    coreStep_of_resolve (s := { hostTurn s with elapsed := Config.elapsed s.draws }) hpc h
  exact ⟨t, ht, step_of_coreStep hrun (hcore.trans ht)⟩

/-- Settles O6: `exec` always answers a next state, so the step always goes on to `finishTick`. -/
theorem stepRunsTheDecodedInstruction : Obligations.StepRunsTheDecodedInstruction := by
  refine ⟨fun s => step_running, fun s i hrun hpc hdecode => ?_⟩
  obtain ⟨t, ht, hstep⟩ := step_of_resolve hrun hpc (resolve_of_decode hdecode)
  simp only [hstep, ht]

/-- Settles O7: the fault is raised in the state the Step began with, and `finishTick` leaves a halted state. -/
theorem fetchBeyondMemoryHalts : Obligations.FetchBeyondMemoryHalts := by
  intro s hrun hpc
  have hcore := coreStep_of_pc_gt (s := { hostTurn s with elapsed := Config.elapsed s.draws }) hpc
  refine ⟨_, (step_of_coreStep hrun hcore).trans (congrArg _ (finishTick_of_ne ?_)), rfl, rfl⟩
  rw [raise_run]
  decide

/-- Settles O9: HALTED is neither of the run states in which something is enabled. -/
theorem haltedTakesNoStep : Obligations.HaltedTakesNoStep := by
  intro s k h
  exact ⟨step_halted h, keyPress_of_ne k fun x => by rw [h]; nofun⟩

/-! ### A placed word (R43, R52) -/

theorem fetchablePc_le (pc : Word) : (fetchablePc pc).toNat ≤ 0xFFE := by
  rw [fetchablePc]
  split
  · assumption
  · decide

/-- What is placed at PC is what a fetch reads there. -/
theorem fetched_withFetchWord {s : State} (hm : s.mem.wf) (nbits w : Nat) :
    readByte (s.withFetchWord nbits w).mem (s.withFetchWord nbits w).pc.toNat ++
      readByte (s.withFetchWord nbits w).mem ((s.withFetchWord nbits w).pc.toNat + 1) = tableWord nbits w := by
  have hr : inRange (fetchablePc s.pc).toNat 2 := inRange_two_iff.mpr (Nat.succ_le_succ (fetchablePc_le s.pc))
  exact (congrArg₂ (· ++ ·) (readByte_putWord_high hm hr _) (readByte_putWord_low hm hr _)).trans (highByte_append_lowByte _)

theorem resolve_of_decodeTableWord {nbits w : Nat} {i : Instr} (h : decodeTableWord nbits w = some i) :
    resolve (tableWord nbits w) = .ok i := by
  rw [decodeTableWord, decode_word] at h
  cases hres : resolve (tableWord nbits w) with
  | ok j =>
    rw [hres] at h
    exact congrArg _ (Option.some.inj h)
  | error e =>
    rw [hres] at h
    cases h

/-- Settles O11: the placed word is fetched and resolves to `i`, and the machine is RUNNING. -/
theorem placedWordRunsNext : Obligations.PlacedWordRunsNext := by
  intro s w i hm h
  refine step_of_resolve (s := s.withFetchWord 16 w) rfl (fetchablePc_le s.pc) ?_
  rw [fetched_withFetchWord hm]
  exact resolve_of_decodeTableWord h

/-! ### The accumulation, on either side of its threshold (R214) -/

theorem accumulate_of_lt {s : State} (h : s.acc + s.elapsed < 16) : accumulate s = { s with acc := s.acc + s.elapsed } := by
  rw [accumulate_eq, if_neg (Nat.not_le.mpr h)]

theorem accumulate_of_ge {s : State} (h : s.acc + s.elapsed ≥ 16) :
    accumulate s = { timerTick s with acc := s.acc + s.elapsed - 16 } := by
  rw [accumulate_eq, if_pos h]

/-! ### The wait for a key (R176, R177) -/

/-- The host's turn can only clear DIRTY (R25). -/
theorem hostTurn_dirty {s : State} (h : (hostTurn s).dirty = true) : s.dirty = true := by
  have hd : (if Config.clearsDirty s.draws then false else s.dirty) = true := h
  split at hd
  · cases hd
  · exact hd

/-- Settles O17: of the host's turn only DIRTY and the index of inputs are seen; then a key arrives or none does. -/
theorem keyWaitHoldsEverything : Obligations.KeyWaitHoldsEverything := by
  refine ⟨exec_ldVxK, fun x s h => ⟨(hostTurn s).dirty, hostTurn_dirty, ?_⟩⟩
  rw [step_waiting h]
  cases Config.keyPress s.draws with
  | none => rfl
  | some k => rfl

theorem keyValue_toNat (k : Nibble) : (k.setWidth 8).toNat = k.toNat := by
  have := k.isLt
  rw [BitVec.toNat_setWidth]
  omega

/-- Settles O18: the key is written and RUN set, then time is accumulated on either side of the threshold (R215). -/
theorem keyPressReleasesTheWait : Obligations.KeyPressReleasesTheWait := by
  refine ⟨fun x k s h => ?_, fun k s => keyPress_of_ne k⟩
  rw [keyPress_waiting k h]
  refine ⟨fun r => ?_, fun hbelow => ?_, fun hreached => ?_⟩
  · exact (toNat_getV_setV s x r _).trans (by rw [keyValue_toNat])
  · exact accumulate_of_lt (s := (s.setV x (k.setWidth 8)).setRun .running) hbelow
  · exact accumulate_of_ge (s := (s.setV x (k.setWidth 8)).setRun .running) hreached

/-! ### Counting ticks and milliseconds (R211, R212, R214) -/

theorem iterate_timerTick_st (s : State) (k : Nat) : (timerTick^[k] s).st.toNat = s.st.toNat - k := by
  induction k with
  | zero => rfl
  | succ k ih =>
    rw [Function.iterate_succ_apply', timerTick_st, countDown_toNat, ih]
    omega

/-- Settles O14: the last of the ticks leaves TONE on exactly if the ST it counts down to is above 0. -/
theorem toneSoundsOnePeriodLess : Obligations.ToneSoundsOnePeriodLess := by
  intro s k hk
  obtain ⟨j, rfl⟩ := Nat.exists_eq_add_of_le' hk
  rw [Function.iterate_succ_apply', timerTick_tone, toneGate_eq, countDown_toNat, iterate_timerTick_st]
  exact decide_eq_decide.mpr (by omega)

/-- Milliseconds that do not reach the threshold only add to ACC. -/
theorem iterate_accumulate_below {s : State} (he : s.elapsed = 1) {k : Nat} (hk : s.acc + k < 16) :
    accumulate^[k] s = { s with acc := s.acc + k } := by
  induction k with
  | zero => rfl
  | succ k ih =>
    rw [Function.iterate_succ_apply', ih (by omega), accumulate_of_lt]
    · simp only [he, Nat.add_assoc]
    · show s.acc + k + s.elapsed < 16
      omega

/-- The millisecond that reaches the threshold makes a TimerTick and empties ACC. -/
theorem accumulate_at_fifteen {s : State} (he : s.elapsed = 1) (ha : s.acc = 15) : accumulate s = { timerTick s with acc := 0 } := by
  rw [accumulate_of_ge (by omega), ha, he]

/-- Settles O16: 15 - ACC milliseconds below the threshold, the one that reaches it, and ACC more. -/
theorem sixteenMillisecondsMakeOneTick : Obligations.SixteenMillisecondsMakeOneTick := by
  intro s ha he
  have hsplit : 16 = s.acc + (1 + (15 - s.acc)) := by omega
  have hbefore : accumulate^[15 - s.acc] s = { s with acc := 15 } := by
    rw [iterate_accumulate_below he (by omega)]
    congr
    omega
  have hafter := iterate_accumulate_below (s := { timerTick s with acc := 0 }) he (k := s.acc) (by simpa using ha)
  rw [hsplit, Function.iterate_add_apply, Function.iterate_add_apply, hbefore, Function.iterate_one,
    accumulate_at_fifteen (s := { s with acc := 15 }) he rfl]
  exact hafter.trans (by simp only [Nat.zero_add]; rfl)

end Sys2Proof.Machine
end

section
/-! The sprite draw in closed form (spec/43_display.md R153): the two nested loops are a sequence of single-pixel draws, no two of them
at the same place, so that the pixels each one toggles and the collisions each one meets add up. `DRW` (R156) is read off it. -/

namespace Sys2Proof.Machine

/-! ### Draws that toggle known pixels -/

/-- Some pixel is on in `f` and off in `g`. -/
def Collides (f g : Framebuffer) : Prop := ∃ X Y, X < 64 ∧ Y < 32 ∧ pixel f X Y = true ∧ pixel g X Y = false

/-- `e` is `d` with the pixels of `mask` toggled, and with the collision of that draw OR-ed to the one before. -/
structure Drawn (mask : Nat → Nat → Bool) (d e : Framebuffer × Bool) : Prop where
  pixels : ∀ X Y, pixel e.1 X Y = (pixel d.1 X Y ^^ mask X Y)
  collision : e.2 = true ↔ d.2 = true ∨ Collides d.1 e.1

theorem not_collides_self (f : Framebuffer) : ¬Collides f f := by
  rintro ⟨X, Y, _, _, hon, hoff⟩
  exact absurd (hon.symm.trans hoff) (by decide)

/-- Drawing nothing. -/
theorem Drawn.refl (d : Framebuffer × Bool) : Drawn (fun _ _ => false) d d where
  pixels X Y := (Bool.xor_false _).symm
  collision := by simp only [not_collides_self, or_false]

/-- Two draws that toggle no common pixel are one draw: a pixel that the first turned off stays off. -/
theorem Drawn.trans {m m' : Nat → Nat → Bool} {d e f : Framebuffer × Bool} (h : Drawn m d e) (h' : Drawn m' e f)
    (hdisjoint : ∀ X Y, m X Y = false ∨ m' X Y = false) : Drawn (fun X Y => m X Y ^^ m' X Y) d f where
  pixels X Y := by rw [h'.pixels, h.pixels, Bool.xor_assoc]
  collision := by
    have hpixel (X Y : Nat) : pixel d.1 X Y = true ∧ pixel f.1 X Y = false ↔
        (pixel d.1 X Y = true ∧ pixel e.1 X Y = false) ∨ (pixel e.1 X Y = true ∧ pixel f.1 X Y = false) := by
      rw [h'.pixels, h.pixels]
      rcases hdisjoint X Y with hm | hm <;> rw [hm] <;> cases pixel d.1 X Y <;> simp
    have hcollides : Collides d.1 f.1 ↔ Collides d.1 e.1 ∨ Collides e.1 f.1 := by
      simp only [Collides, hpixel, and_or_left, exists_or]
    rw [h'.collision, h.collision, hcollides, or_assoc]

theorem Drawn.congr {m m' : Nat → Nat → Bool} {d e : Framebuffer × Bool} (h : Drawn m d e) (hm : ∀ X Y, m X Y = m' X Y) :
    Drawn m' d e where
  pixels X Y := by rw [h.pixels, hm]
  collision := h.collision

/-! ### One pixel, one row, one sprite -/

/-- The one place that a single-pixel draw toggles, if its bit is set. -/
def pixelMask (px py : Nat) (b : Bool) (X Y : Nat) : Bool := decide (X % 64 = px % 64 ∧ Y % 32 = py % 32) && b

theorem drawn_drawPixel (px py : Nat) (b : Bool) (d : Framebuffer × Bool) :
    Drawn (pixelMask px py b) d ((drawPixel d.1 px py b).1, d.2 || (drawPixel d.1 px py b).2) where
  pixels X Y := by
    rw [pixel_drawPixel, pixelMask]
    split
    next h => simp [h]
    next h => simp [h]
  collision := by
    rw [Bool.or_eq_true, drawPixel_collision, Bool.and_eq_true, Bool.not_eq_true']
    refine or_congr_right ⟨fun ⟨hon, hoff⟩ => ?_, fun ⟨X, Y, _, _, hon, hoff⟩ => ?_⟩
    · refine ⟨px % 64, py % 32, Nat.mod_lt _ (by decide), Nat.mod_lt _ (by decide), ?_, ?_⟩
      · rwa [pixel_mod]
      · rwa [pixel_mod]
    · by_cases h : X % 64 = px % 64 ∧ Y % 32 = py % 32
      · rw [← pixel_congr _ h.1 h.2, ← pixel_congr _ h.1 h.2]
        exact ⟨hon, hoff⟩
      · rw [pixel_drawPixel, if_neg h, hon] at hoff
        cases hoff

/-- The places that a row of bits toggles: row `py`, from column `px` on, wrapping. -/
def rowMask (py px : Nat) (bits : List Bool) (X Y : Nat) : Bool :=
  decide (Y % 32 = py % 32) && bits[(X + 64 - px % 64) % 64]?.getD false

/-- A row of at most 64 bits is its first bit and the rest, one column on: no later bit comes back to the first place. -/
theorem rowMask_cons {py px : Nat} {b : Bool} {bits : List Bool} (h : bits.length < 64) (X Y : Nat) :
    (pixelMask px py b X Y = false ∨ rowMask py (px + 1) bits X Y = false) ∧
      (pixelMask px py b X Y ^^ rowMask py (px + 1) bits X Y) = rowMask py px (b :: bits) X Y := by
  by_cases hx : X % 64 = px % 64
  · have hc : (X + 64 - px % 64) % 64 = 0 := by omega
    have hc' : (X + 64 - (px + 1) % 64) % 64 = 63 := by omega
    have hnone : bits[63]? = none := List.getElem?_eq_none (by omega)
    simp [pixelMask, rowMask, hx, hc, hc', hnone]
  · have hc : (X + 64 - px % 64) % 64 = (X + 64 - (px + 1) % 64) % 64 + 1 := by omega
    simp [pixelMask, rowMask, hx, hc]

theorem drawn_drawBits {py : Nat} {bits : List Bool} (h : bits.length ≤ 64) (px : Nat) (d : Framebuffer × Bool) :
    Drawn (rowMask py px bits) d (drawBits py px bits d) := by
  induction bits generalizing px d with
  | nil => exact (Drawn.refl d).congr fun X Y => (Bool.and_false _).symm
  | cons b bits ih =>
    have hlt : bits.length < 64 := h
    exact ((drawn_drawPixel px py b d).trans (ih hlt.le (px + 1) _) fun X Y => (rowMask_cons hlt X Y).1).congr
      fun X Y => (rowMask_cons hlt X Y).2

/-- Column `c` of a sprite row is its bit 7 - c (R153). -/
theorem rowBits_getD (row : Byte) (c : Nat) : (rowBits row)[c]?.getD false = (decide (c < 8) && row.getLsbD (7 - c)) := by
  by_cases h : c < 8
  · simp [rowBits, h]
  · simp [rowBits, h]

/-- A sprite of at most 32 rows is its first row and the rest, one row on: no later row comes back to the first. -/
theorem spriteBitAt_cons {px py : Nat} {row : Byte} {rows : List Byte} (h : rows.length < 32) (X Y : Nat) :
    (rowMask py px (rowBits row) X Y = false ∨ spriteBitAt rows px (py + 1) X Y = false) ∧
      (rowMask py px (rowBits row) X Y ^^ spriteBitAt rows px (py + 1) X Y) = spriteBitAt (row :: rows) px py X Y := by
  by_cases hy : Y % 32 = py % 32
  · have hj : (Y + 32 - py % 32) % 32 = 0 := by omega
    have hj' : (Y + 32 - (py + 1) % 32) % 32 = 31 := by omega
    have hnone : rows[31]? = none := List.getElem?_eq_none (by omega)
    simp [rowMask, spriteBitAt, rowBits_getD, hy, hj, hj', hnone]
  · have hj : (Y + 32 - py % 32) % 32 = (Y + 32 - (py + 1) % 32) % 32 + 1 := by omega
    simp [rowMask, spriteBitAt, hy, hj]

theorem drawn_drawRows {px : Nat} {rows : List Byte} (h : rows.length ≤ 32) (py : Nat) (d : Framebuffer × Bool) :
    Drawn (spriteBitAt rows px py) d (drawRows px py rows d) := by
  induction rows generalizing py d with
  | nil => exact (Drawn.refl d).congr fun X Y => by simp [spriteBitAt]
  | cons row rows ih =>
    have hlt : rows.length < 32 := h
    have hrow : (rowBits row).length ≤ 64 := by simp [rowBits]
    exact ((drawn_drawBits hrow px d).trans (ih hlt.le (py + 1) _) fun X Y => (spriteBitAt_cons hlt X Y).1).congr
      fun X Y => (spriteBitAt_cons hlt X Y).2

theorem drawn_drawSprite (fb : Framebuffer) {rows : List Byte} (h : rows.length ≤ 15) (px py : Nat) :
    Drawn (spriteBitAt rows px py) (fb, false) (drawSprite fb rows px py) :=
  drawn_drawRows (h.trans (by decide)) py (fb, false)

/-- Settles O51: the sprite is one draw of its own bits, from no collision. -/
theorem drawSpriteXorsItsBitsAndOrsCollisions : Obligations.DrawSpriteXorsItsBitsAndOrsCollisions := by
  intro fb rows px py h
  have hdrawn := drawn_drawSprite fb h px py
  refine ⟨fun X Y _ _ => hdrawn.pixels X Y, hdrawn.collision.trans ?_⟩
  simp only [Collides, Bool.false_eq_true, false_or]

/-! ### What `DRW` answers (R156) -/

theorem exec_drw_of_inRange {n : Nibble} {s : State} (hr : inRange s.i.toNat n.toNat) (x y : Nibble) :
    exec (.drw x y n) s = .next (drawAt (bytesAt s.mem s.i.toNat n.toNat) (s.getV x).toNat (s.getV y).toNat s) := by
  rcases exec_drw_cases x y n s with ⟨_, he⟩ | ⟨hout, _⟩
  · exact he
  · exact absurd hr hout

theorem exec_drw_of_not_inRange {n : Nibble} {s : State} (hr : ¬inRange s.i.toNat n.toNat) (x y : Nibble) :
    exec (.drw x y n) s = .next (raise (.outOfRangeAccess (max s.i.toNat 0x1000) .read) s) := by
  rcases exec_drw_cases x y n s with ⟨hin, _⟩ | ⟨_, he⟩
  · exact absurd hin hr
  · exact he

theorem framebuffer_ne_iff {f g : Framebuffer} : f ≠ g ↔ ∃ X Y, pixel f X Y ≠ pixel g X Y := by
  constructor
  · intro hne
    by_contra hall
    push Not at hall
    exact hne (framebuffer_ext fun X Y _ _ => hall X Y)
  · rintro ⟨X, Y, hXY⟩ rfl
    exact hXY rfl

theorem drawAt_dirty_iff (rows : List Byte) (px py : Nat) (s : State) :
    (drawAt rows px py s).dirty = true ↔ s.dirty = true ∨ (drawSprite s.fb rows px py).1 ≠ s.fb := by
  show (s.dirty || decide ((drawSprite s.fb rows px py).1 ≠ s.fb)) = true ↔ _
  rw [Bool.or_eq_true, decide_eq_true_iff]

theorem getV_drawAt (rows : List Byte) (px py : Nat) (s : State) (r : Nibble) :
    (drawAt rows px py s).getV r = if r = 15 then flagByte (drawSprite s.fb rows px py).2 else s.getV r :=
  getV_setV _ 15 r _

/-- Settles O52: on the rows read, the draw writes the framebuffer, DIRTY and, last, VF. -/
theorem drwDrawsAndSetsVf : Obligations.DrwDrawsAndSetsVf := by
  intro x y n s
  refine ⟨fun hpos hout => exec_drw_of_not_inRange (not_inRange_iff.mpr ⟨hpos, hout⟩) x y, fun hin => ?_⟩
  refine ⟨_, bytesAt s.mem s.i.toNat n.toNat, exec_drw_of_inRange hin x y, bytesAt_length _ _ _,
    fun k hk => bytesAt_getElem? _ _ _ k hk, rfl, rfl, ?_, fun r => ?_⟩
  · exact (drawAt_dirty_iff _ _ _ s).trans (or_congr_right framebuffer_ne_iff)
  · rw [getV_drawAt, apply_ite BitVec.toNat, flagByte_toNat]

/-! ### When a draw changes the screen -/

theorem exists_bit_of_ne_zero {b : Byte} (h : b ≠ 0) : ∃ k, k < 8 ∧ b.getLsbD k = true := by
  by_contra hall
  push Not at hall
  refine h (BitVec.eq_of_getLsbD_eq fun k hk => ?_)
  rw [Bool.eq_false_iff.mpr (hall k hk)]
  exact BitVec.getLsbD_zero.symm

/-- A sprite of at most 32 rows has a bit at some place exactly if one of its bytes is not 0. -/
theorem exists_spriteBitAt_iff {rows : List Byte} (h : rows.length ≤ 32) (px py : Nat) :
    (∃ X Y, spriteBitAt rows px py X Y = true) ↔ ∃ row ∈ rows, row ≠ 0 := by
  constructor
  · rintro ⟨X, Y, hbit⟩
    obtain ⟨_, hbit⟩ := Bool.and_eq_true_iff.mp hbit
    cases hrow : rows[(Y + 32 - py % 32) % 32]? with
    | some row =>
      refine ⟨row, List.mem_of_getElem? hrow, ?_⟩
      rintro rfl
      simp [hrow] at hbit
    | none => simp [hrow] at hbit
  · rintro ⟨row, hmem, hne⟩
    obtain ⟨k, hk, rfl⟩ := List.getElem_of_mem hmem
    obtain ⟨b, hb, hbit⟩ := exists_bit_of_ne_zero hne
    have hc : (px + (7 - b) + 64 - px % 64) % 64 = 7 - b := by omega
    have hj : (py + k + 32 - py % 32) % 32 = k := by omega
    have hlt : 7 - b < 8 := by omega
    have hb' : 7 - (7 - b) = b := by omega
    exact ⟨px + (7 - b), py + k, by simp [spriteBitAt, hc, hj, hlt, hb', hbit, hk]⟩

theorem xor_ne_left_iff : ∀ {a b : Bool}, (a ^^ b) ≠ a ↔ b = true := by decide

theorem drawSprite_ne_iff (fb : Framebuffer) {rows : List Byte} (h : rows.length ≤ 15) (px py : Nat) :
    (drawSprite fb rows px py).1 ≠ fb ↔ ∃ row ∈ rows, row ≠ 0 := by
  rw [framebuffer_ne_iff, ← exists_spriteBitAt_iff (h.trans (by decide)) px py]
  simp only [(drawn_drawSprite fb h px py).pixels, xor_ne_left_iff]

theorem exists_mem_bytesAt_iff {m : Memory} {addr n : Nat} {p : Byte → Prop} :
    (∃ b ∈ bytesAt m addr n, p b) ↔ ∃ k < n, p (readByte m (addr + k)) := by
  simp only [List.mem_iff_getElem?]
  constructor
  · rintro ⟨b, ⟨k, hk⟩, hb⟩
    have hlt : k < n := by simpa using (List.getElem?_eq_some_iff.mp hk).1
    rw [bytesAt_getElem? m addr n k hlt] at hk
    exact ⟨k, hlt, Option.some.inj hk ▸ hb⟩
  · rintro ⟨k, hk, hb⟩
    exact ⟨_, ⟨k, bytesAt_getElem? m addr n k hk⟩, hb⟩

theorem bytesAt_nibble_length_le (m : Memory) (addr : Nat) (n : Nibble) : (bytesAt m addr n.toNat).length ≤ 15 := by
  have := n.isLt
  rw [bytesAt_length]
  omega

/-- Settles O53: the pixels that change are those of the sprite's bits, whatever they were. -/
theorem drwSignalsExactlyIfSpriteHasABit : Obligations.DrwSignalsExactlyIfSpriteHasABit := by
  intro x y n s hclear hin
  refine ⟨_, exec_drw_of_inRange hin x y, ?_⟩
  rw [drawAt_dirty_iff, drawSprite_ne_iff _ (bytesAt_nibble_length_le _ _ _), exists_mem_bytesAt_iff, hclear]
  simp only [Bool.false_eq_true, false_or]

/-! ### The same draw twice -/

/-- The same sprite at the same place toggles the same pixels back. -/
theorem drawSprite_twice (fb : Framebuffer) {rows : List Byte} (h : rows.length ≤ 15) (px py : Nat) :
    (drawSprite (drawSprite fb rows px py).1 rows px py).1 = fb :=
  framebuffer_ext fun X Y _ _ => by
    rw [(drawn_drawSprite _ h px py).pixels, (drawn_drawSprite fb h px py).pixels, Bool.xor_assoc, Bool.xor_self, Bool.xor_false]

/-- Settles O54: the first draw moves neither the sprite nor, VF being neither coordinate, its place. -/
theorem drawingTwiceRestoresTheScreen : Obligations.DrawingTwiceRestoresTheScreen := by
  intro x y n s hx hy hin
  refine ⟨_, _, exec_drw_of_inRange hin x y, exec_drw_of_inRange (s := drawAt _ _ _ s) hin x y, ?_⟩
  rw [getV_drawAt, if_neg hx, getV_drawAt, if_neg hy]
  exact drawSprite_twice s.fb (bytesAt_nibble_length_le _ _ _) _ _

/-- A sprite of one pixel at I = 0x300, over the same pixel of the screen, which is on. -/
def onePixelOverOn : State := { State.reset with i := 0x300, mem := [(0x300, 0x80)], fb := setPixel blankFb 0 0 true }

/-- The state after `DRW V0, V1, 1` from there. -/
def onePixelErased : State := { onePixelOverOn with v := (onePixelOverOn.setV 15 1).v, fb := blankFb, dirty := true }

/-- Refutes O55: the first draw turns the one pixel off, with VF = 1; the second turns it on, with VF = 0. -/
theorem not_secondDrawAlwaysCollides : ¬Obligations.SecondDrawAlwaysCollides := by
  intro h
  have hfirst : exec (.drw 0 1 1) onePixelOverOn = .next onePixelErased :=
    (exec_drw_of_inRange (by decide) 0 1).trans (congrArg _ (by decide))
  obtain ⟨u, hu, hvf⟩ := h 0 1 1 onePixelOverOn onePixelErased (by decide) (by decide) (by decide) (by decide)
    ⟨0, by decide, by decide⟩ hfirst
  cases hu.symm.trans (exec_drw_of_inRange (by decide) 0 1)
  revert hvf
  decide

end Sys2Proof.Machine
end

section
/-! The two instructions that read a free input of the host: `RND` (spec/41_alu.md R120) and the key skips (spec/44_timer_key.md R170, R171). -/

namespace Sys2Proof.Machine

/-- Settles O44: `RND` is one register write of the masked byte, and moves the index. -/
theorem rndMasksAFreeByte : Obligations.RndMasksAFreeByte := fun x kk s =>
  ⟨_, exec_rnd x kk s, rfl, fun r => getV_setV s x r _⟩

/-- The key that `V[x]` names, as the sample of R170 gives it. -/
theorem keyIsDown_eq (x : Nibble) (s : State) :
    keyIsDown x s =
      if (s.getV x).toNat ≤ 15 then Config.keyDown s.draws (BitVec.ofNat 4 (s.getV x).toNat) else s.params.keyOorDown := by
  rw [keyIsDown, BitVec.ofNat_toNat]

/-- Settles O57: both skips ask for the same sample, `SKNP` for its negation. -/
theorem keySkipsSampleTheKey : Obligations.KeySkipsSampleTheKey := by
  intro x s down hdown
  rw [← keyIsDown_eq] at hdown
  rw [exec_skp, exec_sknp, ← hdown]
  cases down with
  | true => exact ⟨rfl, rfl⟩
  | false => exact ⟨rfl, rfl⟩

end Sys2Proof.Machine
end
